-- ==== Sys2Proof/Word.lean ====
section
/-!
DEFINITION. The word types of CONV14: the operand byte, the 16-bit word of the SXU, the 17-bit command
word (00_scope.md R9, 30_encoding.md R55). Bit 0 is the least significant bit everywhere (R8).
-/

namespace Sys2Proof

/-- `u8`: one operand byte of a command (00_scope.md R9, 30_encoding.md R56). -/
abbrev Byte := BitVec 8

/-- A 16-bit word: `raw`, `t` and the amount (40_sxu.md R70 to R74). -/
abbrev Half := BitVec 16

/-- A command word `{OP, MSB, LSB}`, 17 bits (30_encoding.md R55, R58). -/
abbrev CommandWord := BitVec 17

end Sys2Proof
end

