-- ==== Sys2Proof/Syntax.lean ====
section
/-!
DEFINITION. The commands of CONV14: one constructor per row of spec/opcode_table.json (30_encoding.md
R57). The operands are the two bytes of the command word as they stand (R56), msb first (R59).
-/

namespace Sys2Proof

/-- The complete opcode map (30_encoding.md R57). -/
inductive Instr where
  /-- `RAW2MS2 msb, lsb`: raw sample to m/s² as a float (42_fmac.md R98) -/
  | raw2ms2 (msb lsb : Byte)
  /-- `RAW2MMS2 msb, lsb`: raw sample to a scaled integer, unit 10⁻⁴ m/s² (43_simul.md R118, R121) -/
  | raw2mms2 (msb lsb : Byte)
deriving DecidableEq, Repr

/-- The operand `msb` of a command (30_encoding.md R59). -/
def Instr.msb : Instr → Byte
  | .raw2ms2 m _ => m
  | .raw2mms2 m _ => m

/-- The operand `lsb` of a command (30_encoding.md R59). -/
def Instr.lsb : Instr → Byte
  | .raw2ms2 _ l => l
  | .raw2mms2 _ l => l

/-- The field `OP` of a command (30_encoding.md R55, R57). -/
def Instr.op : Instr → BitVec 1
  | .raw2ms2 _ _ => 0#1
  | .raw2mms2 _ _ => 1#1

end Sys2Proof
end

