-- ==== Sys2Proof/WellFormed.lean ====
section
/-!
DEFINITION. Well-formedness of what reaches the unit from outside as a plain number: a command word, an
operand of a written command, the operand of a `.W` form. A term of `Instr` carries its bytes in their
own type and 30_encoding.md R60 makes every one of them legal, so there is no ill-formed `Instr`.
-/

namespace Sys2Proof.WellFormed

/-- A number is a command word when it fits the 17 bits of format C (30_encoding.md R55, R58). -/
def commandNumber (w : Nat) : Bool := decide (w < 0x20000)

/-- A written operand is an integer 0..255 (30_encoding.md R63). -/
def operand (v : Nat) : Bool := decide (v ≤ 255)

/-- The operand of a `.W` form is an integer 0..65535 (30_encoding.md R64). -/
def rawOperand (v : Nat) : Bool := decide (v ≤ 65535)

end Sys2Proof.WellFormed
end

