-- ==== Sys2Proof/Decode.lean ====
section
/-!
DEFINITION. Decoding and encoding of command words (30_encoding.md R55, R56, R57, R65). On a 17-bit word
decoding is total; a number that is no 17-bit word is rejected by name.
-/

namespace Sys2Proof

/-- `decode` of 30_encoding.md R65: a decoder tests one bit, `CMD[16]`, and takes `MSB = CMD[15:8]` and
`LSB = CMD[7:0]` as they stand (R56). -/
def decode (w : CommandWord) : Instr :=
  let msb := w.extractLsb' 8 8
  let lsb := w.extractLsb' 0 8
  if w.getLsbD 16 then .raw2mms2 msb lsb else .raw2ms2 msb lsb

/-- `encode(op, m, l) = {op, m, l}` (30_encoding.md R55, R65). -/
def encode : Instr → CommandWord
  | .raw2ms2 msb lsb => 0#1 ++ msb ++ lsb
  | .raw2mms2 msb lsb => 1#1 ++ msb ++ lsb

/-- Why a number is no command. -/
inductive DecodeError where
  /-- the number does not fit the 17 bits of a command word (30_encoding.md R55, R58) -/
  | notACommandWord
deriving DecidableEq, Repr

/-- The answer of `decodeNumber`. -/
inductive Decoded where
  /-- the command the number stands for -/
  | command (i : Instr)
  /-- the number is rejected by name -/
  | rejected (e : DecodeError)
deriving DecidableEq, Repr

/-- The 17-bit word a number is, where it is one (30_encoding.md R55: `0x00000..0x1FFFF`). -/
def commandWord? (w : Nat) : Option CommandWord :=
  if WellFormed.commandNumber w then some (BitVec.ofNat 17 w) else none

/-- Decoding of any number: a command word is decoded, anything wider is rejected. -/
def decodeNumber (w : Nat) : Decoded :=
  match commandWord? w with
  | some c => .command (decode c)
  | none => .rejected .notACommandWord

/-- The command word of a row of spec/opcode_table.json: the low `nbits` bits of `w`, every bit above
them 0. CONV14 has no byte stream (20_memory.md R43): the word is presented as one value. -/
def tableWord? (nbits w : Nat) : Option CommandWord := commandWord? (w % 2 ^ nbits)

/-- What the decoder reads from an instruction whose bits are `w`, numbered as the opcode table numbers
them (30_encoding.md R8, R55). -/
def decodeTableWord (nbits w : Nat) : Option Instr := (tableWord? nbits w).map decode

/-- `RAW2MS2.W raw` expands to `RAW2MS2 (raw >> 8), (raw & 0xFF)` (30_encoding.md R64). -/
def raw2ms2W (raw : Half) : Instr := .raw2ms2 ((raw >>> 8).setWidth 8) ((raw &&& 0xFF#16).setWidth 8)

/-- `RAW2MMS2.W raw` expands to `RAW2MMS2 (raw >> 8), (raw & 0xFF)` (30_encoding.md R64). -/
def raw2mms2W (raw : Half) : Instr := .raw2mms2 ((raw >>> 8).setWidth 8) ((raw &&& 0xFF#16).setWidth 8)

end Sys2Proof
end

