-- ==== Sys2Proof/Config.lean ====
section
/-!
DEFINITION. What an implementation fixes and what the spec leaves open: the floating-point format `FMT`
(00_scope.md R7, decision D6) and the one free value of the model.
-/

namespace Sys2Proof

/-- The two values the parameter `FMT` may take (00_scope.md R7). -/
inductive Format where
  /-- IEEE binary32, the value for this hardware -/
  | binary32
  /-- IEEE binary64, the named alternative -/
  | binary64
deriving DecidableEq, Repr

/-- `FLEN`: the width in bits of the image of a value of the format (00_scope.md R7, R12). -/
abbrev Format.flen : Format → Nat
  | .binary32 => 32
  | .binary64 => 64

/-- `FMT` of this hardware (00_scope.md R7; log entry 1). Only `State`, and what is built on it, fixes it: the
datapath, the registers and the machine `StateAt` take the format as an argument. -/
abbrev Config.fmt : Format := .binary32

/-- FREE VALUE (log entry 4). What the multiplier answers for operands that are NaN, infinite or
subnormal, and for a product outside the normal range: 42_fmac.md R96 and R104 give no rule there and
93_implementation_defined.md U15 asks that none be picked. It has no body, so nothing can be proved of
its value; no command reaches it. -/
opaque Config.fmulOpen : (f : Format) → BitVec f.flen → BitVec f.flen → BitVec f.flen

end Sys2Proof
end

