-- ==== Sys2Proof/Machine/State.lean ====
section
/-!
DEFINITION. The state of one CONV14 instance as plain data: the six registers of 10_state.md R21 to R26
at a format, and beside them the host's side of the ports and the record of the run's fault. The faults
and refusals of a step, and the state right after reset.
-/

namespace Sys2Proof.Machine

/-- The six registers (10_state.md R21 to R26) for the format `f`. Each holds bits at every time, as its
flip-flops do (60_exceptions.md R144). "Holds no value", the `⊥` of 00_scope.md R15, is a matter of the
valid bits: the views `Regs.heldAmt` to `Regs.heldIres` answer it (log entry 2). -/
structure Regs (f : Format) where
  /-- `AMT`, the amount register, an `i16` (R21) -/
  amt : BitVec 16
  /-- `FACC`, the floating-point accumulator, the image of a value of the format (R22) -/
  facc : BitVec f.flen
  /-- `PROD`, the product register, an `i64` (R23) -/
  prod : BitVec 64
  /-- `IRES`, the integer result register, an `i32` (R24) -/
  ires : BitVec 32
  /-- `FV`, float valid (R25) -/
  fv : BitVec 1
  /-- `IV`, integer valid (R26) -/
  iv : BitVec 1
deriving DecidableEq, Repr

/-- What the host can do to the unit, one constructor per row of the table of 70_reset_and_hazards.md
R155. It can write no register and can read neither `AMT` nor `PROD` (10_state.md R37). -/
inductive HostAction where
  /-- present a command word, a `RAW2MS2` or a `RAW2MMS2` -/
  | present (w : CommandWord)
  /-- read the wires `FV` and `IV`, the view `STATUS` (10_state.md R27) -/
  | readStatus
  /-- read `bits_F(FACC)` -/
  | readFacc
  /-- read `IRES` -/
  | readIres
  /-- assert reset; `cut` is the command it cuts short, if any (60_exceptions.md R134) -/
  | reset (cut : Option CommandWord)
deriving DecidableEq, Repr

/-- What a host read gives back (70_reset_and_hazards.md R155). `none` is `⊥`: a read with the valid bit
0 "reads `⊥`" (10_state.md R37), an absent option and never a number (00_scope.md R15). -/
inductive Reading (f : Format) where
  /-- `STATUS = {IV, FV}` -/
  | status (v : BitVec 2)
  /-- `bits_F(FACC)`, or `⊥` -/
  | facc (bits : Option (BitVec f.flen))
  /-- `IRES`, or `⊥` -/
  | ires (v : Option (BitVec 32))
deriving DecidableEq, Repr

/-- The whole machine at the format `f`, "an argument" of a model (00_scope.md R7): the registers, the
host's side of the ports (log entry 3) and the record of the run's fault (log entry 5). -/
structure StateAt (f : Format) extends Regs f where
  /-- the host's actions not yet taken, the next one first (70_reset_and_hazards.md R159) -/
  pending : List HostAction
  /-- what the host's reads returned so far, the newest first -/
  readings : List (Reading f)
  /-- the run is faulted: the host has read a result whose valid bit was 0 (70_reset_and_hazards.md R153,
  60_exceptions.md R144). The model's record and no part of the unit, whose registers and answers do not depend
  on it; nothing clears it. That a reset asserted later leaves it too is the model's choice (log entry
  5). -/
  faulted : Bool
deriving DecidableEq, Repr

/-- The machine of this hardware, at its format: the fields `amt`, `facc`, `prod`, `ires`, `fv`, `iv`,
`pending`, `readings` and `faulted`, all from `StateAt` (log entry 1). -/
structure State extends StateAt Config.fmt where
deriving DecidableEq, Repr

/-- Why a step stops with a fault: never. It has no constructor, because a step function for CONV14 "is
total and returns a next state" and "has no fault outcome" (60_exceptions.md R130). An early read of the
host goes on as the hardware does (R144), and its fault is recorded in `StateAt.faulted`. -/
inductive Fault where
deriving DecidableEq, Repr

/-- Why a step refuses. -/
inductive Refusal where
  /-- an instruction of the opcode table that has no meaning yet; no arm of `exec` raises it; safe -/
  | notModelled (mnemonic : String)
deriving DecidableEq, Repr

/-- The registers after reset (10_state.md R35). `FV` and `IV` are 0, as the rule says. The four data
registers then hold no value, and no view answers one; the bits they hold meanwhile are 0, the model's
choice (log entry 2). -/
def Regs.reset (f : Format) : Regs f :=
  { amt := 0#16, facc := 0#f.flen, prod := 0#64, ires := 0#32, fv := 0#1, iv := 0#1 }

/-- The machine at the format `f` right after reset: the registers as 10_state.md R35 says, no action of
the host pending, no reading taken (log entry 3) and no fault recorded (log entry 5). -/
def StateAt.reset (f : Format) : StateAt f :=
  { toRegs := Regs.reset f, pending := [], readings := [], faulted := false }

/-- The machine of this hardware right after reset (10_state.md R35). -/
def State.reset : State := { toStateAt := StateAt.reset Config.fmt }

end Sys2Proof.Machine
end

