-- ==== Sys2Proof/Machine/Ops.lean ====
section
/-!
DEFINITION. The named operations on the machine. CONV14 has no memory (20_memory.md R40) and takes no
exception and returns from none (60_exceptions.md R130, R135, R136), so there is no memory operation and
no exception entry here; the one event that replaces the registers is reset (70_reset_and_hazards.md
R150).
-/

namespace Sys2Proof.Machine

/-- `AMT <- v` (10_state.md R21). -/
def Regs.setAmt {f : Format} (r : Regs f) (v : BitVec 16) : Regs f := { r with amt := v }

/-- `FACC <- v` (10_state.md R22). -/
def Regs.setFacc {f : Format} (r : Regs f) (v : BitVec f.flen) : Regs f := { r with facc := v }

/-- `PROD <- v` (10_state.md R23). -/
def Regs.setProd {f : Format} (r : Regs f) (v : BitVec 64) : Regs f := { r with prod := v }

/-- `IRES <- v` (10_state.md R24). -/
def Regs.setIres {f : Format} (r : Regs f) (v : BitVec 32) : Regs f := { r with ires := v }

/-- The machine with other registers; the host's side stays. -/
def StateAt.setRegs {f : Format} (s : StateAt f) (r : Regs f) : StateAt f := { s with toRegs := r }

/-- A value, or `⊥`, delivered to the host. It changes no register (10_state.md R37). -/
def StateAt.deliver {f : Format} (s : StateAt f) (v : Reading f) : StateAt f :=
  { s with readings := v :: s.readings }

/-- The model's judgement of a read (60_exceptions.md R144): where the host was not allowed it, the run is
faulted, and a fault once recorded is kept (70_reset_and_hazards.md R153). -/
def StateAt.judge {f : Format} (s : StateAt f) (allowed : Bool) : StateAt f :=
  { s with faulted := s.faulted || !allowed }

/-- Reset: the registers take the values of 10_state.md R35 "whatever it was doing"
(70_reset_and_hazards.md R150). A command it cuts short has no effect (60_exceptions.md R134). It leaves
a recorded fault where it is, which is the model's choice (log entry 5). -/
def StateAt.assertReset {f : Format} (s : StateAt f) (_cut : Option CommandWord) : StateAt f :=
  s.setRegs (Regs.reset f)

/-- The next state of this hardware's machine. Everything the machine does answers through it
(60_exceptions.md R130). -/
def answer (t : StateAt Config.fmt) : Host.Outcome State Fault Refusal := .next { toStateAt := t }

end Sys2Proof.Machine
end

