-- ==== Sys2Proof/Machine/Flags.lean ====
section
/-!
DEFINITION. The valid bits, and the values they say the registers hold. CONV14 has no flag and no
condition code (10_state.md R30) and no floating-point exception flag (42_fmac.md R106); `FV` and `IV`
say that a result register holds a result, and no command reads them.
-/

namespace Sys2Proof.Machine

/-- `FV <- 1` (10_state.md R25). -/
def Regs.setFv {f : Format} (r : Regs f) : Regs f := { r with fv := 1#1 }

/-- `IV <- 1` (10_state.md R26). -/
def Regs.setIv {f : Format} (r : Regs f) : Regs f := { r with iv := 1#1 }

/-- `STATUS = {IV, FV}`: `STATUS[0] = FV`, `STATUS[1] = IV` (10_state.md R27). -/
def Regs.status {f : Format} (r : Regs f) : BitVec 2 := r.iv ++ r.fv

/-- The value `FACC` holds, `⊥` while `FV = 0` (00_scope.md R15, 70_reset_and_hazards.md R153). -/
def Regs.heldFacc {f : Format} (r : Regs f) : Option (BitVec f.flen) :=
  if r.fv = 1#1 then some r.facc else none

/-- The value `IRES` holds, `⊥` while `IV = 0` (00_scope.md R15, 70_reset_and_hazards.md R153). -/
def Regs.heldIres {f : Format} (r : Regs f) : Option (BitVec 32) :=
  if r.iv = 1#1 then some r.ires else none

/-- The value `PROD` holds: `RAW2MMS2` alone writes it and sets `IV` (10_state.md R36), so it is `⊥`
while `IV = 0`. -/
def Regs.heldProd {f : Format} (r : Regs f) : Option (BitVec 64) :=
  if r.iv = 1#1 then some r.prod else none

/-- The value `AMT` holds: every command writes it and sets a valid bit (10_state.md R36), so it is `⊥`
while both are 0. -/
def Regs.heldAmt {f : Format} (r : Regs f) : Option (BitVec 16) :=
  if r.fv = 1#1 ∨ r.iv = 1#1 then some r.amt else none

end Sys2Proof.Machine
end

