-- ==== Sys2Proof/Machine/Float.lean ====
section
/-!
DEFINITION. The floating-point datapath for either format: the layout of an image (00_scope.md R12),
rounding to nearest, ties to even (42_fmac.md R95), the integer-to-float converter (41_i2f.md R86 to
R88), the multiplier (42_fmac.md R96) and the two constants (10_state.md R29). Everything is computed on
natural numbers and narrowed to the image at the end.
-/

namespace Sys2Proof.Machine

/-- Width of the fraction field, `p − 1` (00_scope.md R12). -/
def fracBits : Format → Nat
  | .binary32 => 23
  | .binary64 => 52

/-- Width of the exponent field (00_scope.md R12). -/
def expBits : Format → Nat
  | .binary32 => 8
  | .binary64 => 11

/-- The exponent bias (00_scope.md R12). -/
def bias : Format → Nat
  | .binary32 => 127
  | .binary64 => 1023

/-- The sign bit, the top bit of the image. -/
def signBit (f : Format) (a : BitVec f.flen) : Bool := a.msb

/-- The exponent field. -/
def expField (f : Format) (a : BitVec f.flen) : Nat := a.toNat / 2 ^ fracBits f % 2 ^ expBits f

/-- The fraction field. -/
def fracField (f : Format) (a : BitVec f.flen) : Nat := a.toNat % 2 ^ fracBits f

/-- The image with sign `s` whose other bits, exponent above fraction, are the number `mag`. -/
def image (f : Format) (s : Bool) (mag : Nat) : BitVec f.flen :=
  BitVec.ofNat f.flen ((if s then 2 ^ (fracBits f + expBits f) else 0) + mag)

/-- A normal number: neither the lowest nor the highest exponent field. -/
def isNormal (f : Format) (a : BitVec f.flen) : Bool :=
  decide (expField f a ≠ 0) && decide (expField f a ≠ 2 ^ expBits f - 1)

/-- A zero of either sign. -/
def isZero (f : Format) (a : BitVec f.flen) : Bool :=
  decide (expField f a = 0) && decide (fracField f a = 0)

/-- The operands for which the spec defines the multiplier: not NaN, not infinite, not subnormal
(42_fmac.md R96). -/
def isOperand (f : Format) (a : BitVec f.flen) : Bool := isNormal f a || isZero f a

/-- The significand as an integer, the hidden bit included; 0 for a zero. -/
def significand (f : Format) (a : BitVec f.flen) : Nat :=
  if isZero f a then 0 else 2 ^ fracBits f + fracField f a

/-- `m / 2^k` rounded to the nearest integer, a tie to the even one (42_fmac.md R95). -/
def roundEven (m k : Nat) : Nat :=
  let q := m / 2 ^ k
  let r := m % 2 ^ k
  if 2 ^ k < 2 * r ∨ (2 * r = 2 ^ k ∧ q % 2 = 1) then q + 1 else q

/-- `m > 0` scaled to a significand of `p` bits, rounded where bits are lost; it is `2^p` when the
rounding carries out. -/
def roundSignificand (f : Format) (m : Nat) : Nat :=
  if m.log2 ≤ fracBits f then m * 2 ^ (fracBits f - m.log2) else roundEven m (m.log2 - fracBits f)

/-- `rnd_F` of the dyadic number `± m · 2^x` (00_scope.md R12, 42_fmac.md R95): its image where the
result is zero or normal, `none` where it would be subnormal or too large, for which the spec has no
rule (42_fmac.md R104). A carry out of the significand runs into the exponent field. -/
def rnd (f : Format) (s : Bool) (m : Nat) (x : Int) : Option (BitVec f.flen) :=
  if m = 0 then some (image f s 0)
  else
    let e : Int := x + m.log2 + bias f
    let mag := e.toNat * 2 ^ fracBits f + (roundSignificand f m - 2 ^ fracBits f)
    if 1 ≤ e ∧ mag < (2 ^ expBits f - 1) * 2 ^ fracBits f then some (image f s mag) else none

/-- The exponent `x` that goes with the significand: a nonzero operand is `± significand · 2^x`. -/
def scale (f : Format) (a : BitVec f.flen) : Int := (expField f a : Int) - bias f - fracBits f

/-- `fmul_F(a, b) = rnd_F(val(a) × val(b))`, its sign the XOR of the operands' signs (42_fmac.md R96).
Where the spec gives no rule the free value `Config.fmulOpen` stands (log entry 4). -/
def fmul (f : Format) (a b : BitVec f.flen) : BitVec f.flen :=
  if isOperand f a && isOperand f b then
    match rnd f (signBit f a ^^ signBit f b) (significand f a * significand f b)
        (scale f a + scale f b) with
    | some r => r
    | none => Config.fmulOpen f a b
  else Config.fmulOpen f a b

/-- `bits_F(i2f_F(n))` (41_i2f.md R86, R87, R88): `+0` for zero; else sign `s`, exponent field
`e + bias` and fraction field `(a − 2^e) · 2^(p−1−e)` for `a = |n|` and `e` its highest set bit. -/
def i2f (f : Format) (n : Half) : BitVec f.flen :=
  let a := n.toInt.natAbs
  if a = 0 then image f false 0
  else
    let e := a.log2
    image f n.msb ((e + bias f) * 2 ^ fracBits f + (a - 2 ^ e) * 2 ^ (fracBits f - e))

/-- `K_SENS_F`, the image of `1/4096`, exact in both formats (10_state.md R29, 42_fmac.md R94). -/
def kSens : (f : Format) → BitVec f.flen
  | .binary32 => 0x39800000#32
  | .binary64 => 0x3F30000000000000#64

/-- `K_G_F = rnd_F(9.80665)` (10_state.md R29, 42_fmac.md R94). -/
def kG : (f : Format) → BitVec f.flen
  | .binary32 => 0x411CE80A#32
  | .binary64 => 0x40239D013A92A305#64

end Sys2Proof.Machine
end

