-- ==== Sys2Proof/Machine/Operands.lean ====
section
/-!
DEFINITION. The one operand form of CONV14, "two bytes in the command" (30_encoding.md R56), and what
the SXU makes of it (40_sxu.md R70 to R74). Both commands begin with it (R75). Beside the shift form, the
normative one, stand the other forms the spec writes out; they are one function (40_sxu.md R83), which
Laws/Operands.lean says for every `raw`.
-/

namespace Sys2Proof.Machine

/-- `raw = {msb, lsb}` (40_sxu.md R70, 20_memory.md R42). -/
def rawWord (msb lsb : Byte) : Half := msb ++ lsb

/-- `t = shl_16(raw, 2)`: a 16-bit shift, so `raw[15:14]` are lost (40_sxu.md R71). -/
def shifted (raw : Half) : Half := raw <<< 2

/-- `asr_16(t, 2)`, `t` read as an `i16` (40_sxu.md R72, R73; 00_scope.md R10). -/
def amount (t : Half) : Half := t.sshiftRight 2

/-- `sxu(msb, lsb)`, an `i16` in −8192..8191 (40_sxu.md R74): the shift form, the contract that R83 asks a
model to equate with the other forms (`formsAgree`). -/
def sxu (msb lsb : Byte) : Half := amount (shifted (rawWord msb lsb))

/-- `raw[13:0]`, the field the unit decodes (40_sxu.md R76). -/
def field14 (raw : Half) : BitVec 14 := raw.extractLsb' 0 14

/-- `signed_14(raw[13:0])`, the document's `sign_extend14(raw)` (40_sxu.md R76, R83). -/
def signed14 (raw : Half) : Int := (field14 raw).toInt

/-- The explicit form: "test bit 13 of the 14-bit field and subtract 2^14 if set" (40_sxu.md R78, R83). -/
def explicitForm (raw : Half) : Int :=
  if (field14 raw).getLsbD 13 then (field14 raw).toNat - 16384 else (field14 raw).toNat

/-- The form with no test: `((raw AND 0x3FFF) XOR 0x2000) − 0x2000` (40_sxu.md R78). -/
def xorForm (raw : Half) : Int := ((raw &&& 0x3FFF#16) ^^^ 0x2000#16).toNat - 0x2000

/-- The equality 40_sxu.md R83 asks a model to state: the contract of R70 to R73, the explicit form of R78
and `sign_extend14(raw)` are one function, `signed_14(raw[13:0])`; the form with no test is it too (R78).
It holds of every `raw`, which `formsAgree_every_raw` of Laws/Operands.lean proves. -/
def formsAgree (raw : Half) : Prop :=
  (amount (shifted raw)).toInt = signed14 raw ∧ explicitForm raw = signed14 raw ∧
  xorForm raw = signed14 raw

end Sys2Proof.Machine
end

