-- ==== Sys2Proof/Machine/Fmac.lean ====
section
/-!
DEFINITION. The floating-point path and its command `RAW2MS2` (42_fmac.md R97, R98).
-/

namespace Sys2Proof.Machine

/-- `FACC` after its first write in a `RAW2MS2`, `i2f_F(AMT)` (42_fmac.md R98, 41_i2f.md R90). -/
def facc1 (f : Format) (amt : Half) : BitVec f.flen := i2f f amt

/-- `FACC` after its second write, `fmul_F(FACC, K_SENS_F)`: the sensitivity comes first (42_fmac.md
R97, R98). -/
def facc2 (f : Format) (amt : Half) : BitVec f.flen := fmul f (facc1 f amt) (kSens f)

/-- `FACC` after its third write, `fmul_F(FACC, K_G_F)`: the result (42_fmac.md R98). -/
def facc3 (f : Format) (amt : Half) : BitVec f.flen := fmul f (facc2 f amt) (kG f)

/-- What `RAW2MS2` does to the registers, write by write, for either format (42_fmac.md R98). -/
def raw2ms2Regs (f : Format) (msb lsb : Byte) (r : Regs f) : Regs f :=
  let amt := sxu msb lsb
  ((((r.setAmt amt).setFacc (facc1 f amt)).setFacc (facc2 f amt)).setFacc (facc3 f amt)).setFv

/-- `RAW2MS2 msb, lsb` on the machine at either format (42_fmac.md R98, 00_scope.md R7). -/
def raw2ms2At {f : Format} (msb lsb : Byte) (s : StateAt f) : StateAt f :=
  s.setRegs (raw2ms2Regs f msb lsb s.toRegs)

/-- `RAW2MS2 msb, lsb` (42_fmac.md R98). It completes for every operand (60_exceptions.md R130). -/
def execRaw2ms2 (msb lsb : Byte) (s : State) : Host.Outcome State Fault Refusal :=
  answer (raw2ms2At msb lsb s.toStateAt)

end Sys2Proof.Machine
end

