-- ==== Sys2Proof/Machine/Sim.lean ====
section
/-!
DEFINITION. The scaled-integer multiplier and its command `RAW2MMS2` (43_simul.md R113 to R118).
-/

namespace Sys2Proof.Machine

/-- `K_NUM` (10_state.md R29). -/
def kNum : Int := 980665

/-- `K_DEN` (10_state.md R29). It is 40960, not 409600 (43_simul.md R121, 90_conflicts.md C2). -/
def kDen : Int := 40960

/-- `sext_64(AMT)` (43_simul.md R113). -/
def widen (amt : Half) : BitVec 64 := amt.signExtend 64

/-- `a64 × 980665`, an `i64` (43_simul.md R114). -/
def product (a64 : BitVec 64) : BitVec 64 := a64 * BitVec.ofInt 64 kNum

/-- `tdiv(PROD, 40960)`: the quotient truncated toward zero, on the signed value (43_simul.md R116,
00_scope.md R11). -/
def quotient (prod : BitVec 64) : BitVec 64 := BitVec.ofInt 64 (prod.toInt.tdiv kDen)

/-- `q[31:0]` (43_simul.md R117). -/
def narrow (q : BitVec 64) : BitVec 32 := q.extractLsb' 0 32

/-- `PROD` after a `RAW2MMS2` of the amount. -/
def prodOf (amt : Half) : BitVec 64 := product (widen amt)

/-- `IRES` after a `RAW2MMS2` of the amount. -/
def iresOf (amt : Half) : BitVec 32 := narrow (quotient (prodOf amt))

/-- What `RAW2MMS2` does to the registers, write by write (43_simul.md R118). It does not depend on the
format (R124). -/
def raw2mms2Regs {f : Format} (msb lsb : Byte) (r : Regs f) : Regs f :=
  let amt := sxu msb lsb
  (((r.setAmt amt).setProd (prodOf amt)).setIres (iresOf amt)).setIv

/-- `RAW2MMS2 msb, lsb` on the machine at either format (43_simul.md R118, 00_scope.md R7). -/
def raw2mms2At {f : Format} (msb lsb : Byte) (s : StateAt f) : StateAt f :=
  s.setRegs (raw2mms2Regs msb lsb s.toRegs)

/-- `RAW2MMS2 msb, lsb` (43_simul.md R118). It completes for every operand (60_exceptions.md R130). -/
def execRaw2mms2 (msb lsb : Byte) (s : State) : Host.Outcome State Fault Refusal :=
  answer (raw2mms2At msb lsb s.toStateAt)

end Sys2Proof.Machine
end

