-- ==== Sys2Proof/Machine/Dispatch.lean ====
section
/-! DEFINITION. One arm per command: the opcode map of 30_encoding.md R57. -/

namespace Sys2Proof.Machine

def exec (i : Instr) (s : State) : Host.Outcome State Fault Refusal :=
  match i with
  | .raw2ms2 msb lsb => Sys2Proof.Machine.execRaw2ms2 msb lsb s
  | .raw2mms2 msb lsb => Sys2Proof.Machine.execRaw2mms2 msb lsb s

end Sys2Proof.Machine
end

