-- ==== Sys2Proof/Machine/HostPort.lean ====
section
/-!
DEFINITION. What each action of the host does (70_reset_and_hazards.md R155, 10_state.md R37), and one
step of the machine at either format (00_scope.md R7).
-/

namespace Sys2Proof.Machine

/-- A command on the machine at either format (30_encoding.md R57, 00_scope.md R7). -/
def commandAt {f : Format} (i : Instr) (s : StateAt f) : StateAt f :=
  match i with
  | .raw2ms2 msb lsb => raw2ms2At msb lsb s
  | .raw2mms2 msb lsb => raw2mms2At msb lsb s

/-- A read of the wires `FV` and `IV`: allowed at any time, no side effect (10_state.md R27, R37). -/
def readStatusAt {f : Format} (s : StateAt f) : StateAt f := s.deliver (.status s.status)

/-- A read of `bits_F(FACC)`: the value with `FV = 1`, else `⊥` (10_state.md R37) and a fault of the run
(70_reset_and_hazards.md R153). The unit raises nothing and no register changes (60_exceptions.md
R144). -/
def readFaccAt {f : Format} (s : StateAt f) : StateAt f :=
  (s.deliver (.facc s.heldFacc)).judge s.heldFacc.isSome

/-- A read of `IRES`: the value with `IV = 1`, else `⊥` and a fault of the run, as for `FACC`. -/
def readIresAt {f : Format} (s : StateAt f) : StateAt f :=
  (s.deliver (.ires s.heldIres)).judge s.heldIres.isSome

/-- One action of the host, at either format. A presented command is decoded and executed whole
(20_memory.md R47). -/
def performAt {f : Format} (a : HostAction) (s : StateAt f) : StateAt f :=
  match a with
  | .present w => commandAt (decode w) s
  | .readStatus => readStatusAt s
  | .readFacc => readFaccAt s
  | .readIres => readIresAt s
  | .reset cut => s.assertReset cut

/-- One step of the machine at either format: total, with a next state alone (60_exceptions.md R130).
With nothing pending the unit is idle and holds its registers (R143, 70_reset_and_hazards.md R151). -/
def stepAt {f : Format} (s : StateAt f) : StateAt f :=
  match s.pending with
  | [] => s
  | a :: rest => performAt a { s with pending := rest }

/-- One action of the host on this hardware's machine; a command goes through `exec`. -/
def perform (a : HostAction) (s : State) : Host.Outcome State Fault Refusal :=
  match a with
  | .present w => exec (decode w) s
  | .readStatus => answer (readStatusAt s.toStateAt)
  | .readFacc => answer (readFaccAt s.toStateAt)
  | .readIres => answer (readIresAt s.toStateAt)
  | .reset cut => answer (s.toStateAt.assertReset cut)

/-- The host's next action is to present the command word, ahead of whatever else it will do. -/
def presentNext (s : State) (w : CommandWord) : State := { s with pending := .present w :: s.pending }

end Sys2Proof.Machine
end

