-- ==== Sys2Proof/Machine/Step.lean ====
section
/-!
DEFINITION. One step of the machine: the host's next action, or nothing where none is pending.
-/

namespace Sys2Proof.Machine

/-- One step. The unit fetches nothing (10_state.md R31): it takes the host's next action, and with none
pending it is idle and holds its registers (60_exceptions.md R143, 70_reset_and_hazards.md R151). -/
def step (s : State) : Host.Outcome State Fault Refusal :=
  match s.pending with
  | [] => .next s
  | a :: rest => perform a { s with pending := rest }

/-- `s` with the instruction whose bits are `w` presented next by the host, so that the very next step
runs it (log entry 6). A number that is no command word cannot be presented: `s` is left as it is. -/
def State.withFetchWord (s : State) (nbits w : Nat) : State :=
  match tableWord? nbits w with
  | some c => presentNext s c
  | none => s

end Sys2Proof.Machine
end

