-- ==== Sys2Proof/Machine/Assembler.lean ====
section
/-!
DEFINITION. The text form of one line of a command list (30_encoding.md R63, R64): mnemonics, the
document's names as aliases, the two `.W` forms, numbers, comments. A line is a list of characters. How
words are told apart and where blanks may stand is the model's reading (log entry 7). No step of the
machine uses it.
-/

namespace Sys2Proof.Machine

/-- Why a line is an assembly error (30_encoding.md R63). -/
inductive AsmError where
  /-- the first word is none of the names of R63 and R64 -/
  | unknownMnemonic
  /-- the operands are not of the form the mnemonic asks for -/
  | wrongOperands
  /-- an operand is no decimal, `0x` or `0b` number -/
  | notANumber
  /-- an operand is outside its range, "an assembly error, not a command" -/
  | outOfRange
deriving DecidableEq, Repr

/-- What a line is. -/
inductive AsmLine where
  /-- nothing but blanks and a comment -/
  | empty
  /-- one command -/
  | command (i : Instr)
  /-- an assembly error -/
  | error (e : AsmError)
deriving DecidableEq, Repr

/-- What a mnemonic stands for: a command of two byte operands, or a `.W` form of one operand. -/
inductive AsmForm where
  | bytes (milli : Bool)
  | word (milli : Bool)
deriving DecidableEq, Repr

/-- The mnemonics, the document's names and the pseudo-forms (30_encoding.md R63, R64). `false` stands
for `RAW2MS2`, `true` for `RAW2MMS2`. -/
def asmNames : List (List Char × AsmForm) :=
  [ (['R', 'A', 'W', '2', 'M', 'S', '2'], .bytes false),
    (['R', 'A', 'W', '2', 'M', 'M', 'S', '2'], .bytes true),
    (['R', 'A', 'W', '2', 'M', 'S', '2', '.', 'W'], .word false),
    (['R', 'A', 'W', '2', 'M', 'M', 'S', '2', '.', 'W'], .word true),
    (['R', 'a', 'w', 'T', 'o', 'A', 'c', 'c', 'e', 'l', 'e', 'r', 'a', 't', 'i', 'o', 'n'],
      .bytes false),
    (['R', 'a', 'w', 'T', 'o', 'A', 'c', 'c', 'e', 'l', 'e', 'r', 'a', 't', 'i', 'o', 'n', 'M', 'i',
      'l', 'l', 'i'], .bytes true),
    (['r', 'a', 'w', '_', 't', 'o', '_', 'a', 'c', 'c', 'e', 'l', 'e', 'r', 'a', 't', 'i', 'o', 'n',
      '_', 'm', 's', '2'], .bytes false),
    (['r', 'a', 'w', '_', 't', 'o', '_', 'a', 'c', 'c', 'e', 'l', 'e', 'r', 'a', 't', 'i', 'o', 'n',
      '_', 'm', 'm', 's', '2'], .bytes true) ]

/-- The value of a digit character in any base up to 16. -/
def digitValue (c : Char) : Option Nat :=
  if '0'.toNat ≤ c.toNat ∧ c.toNat ≤ '9'.toNat then some (c.toNat - '0'.toNat)
  else if 'a'.toNat ≤ c.toNat ∧ c.toNat ≤ 'f'.toNat then some (c.toNat - 'a'.toNat + 10)
  else if 'A'.toNat ≤ c.toNat ∧ c.toNat ≤ 'F'.toNat then some (c.toNat - 'A'.toNat + 10)
  else none

/-- A digit appended to the number read so far. -/
def pushDigit (base : Nat) (acc : Option Nat) (c : Char) : Option Nat :=
  match acc, digitValue c with
  | some n, some d => if d < base then some (n * base + d) else none
  | _, _ => none

/-- One or more digits of a base. -/
def readDigits (base : Nat) : List Char → Option Nat
  | [] => none
  | d :: ds => (d :: ds).foldl (pushDigit base) (some 0)

/-- An integer "in decimal, `0x` hexadecimal or `0b` binary" (30_encoding.md R63). -/
def readNumber : List Char → Option Nat
  | '0' :: 'x' :: ds => readDigits 16 ds
  | '0' :: 'b' :: ds => readDigits 2 ds
  | ds => readDigits 10 ds

/-- Text from `;` to the end of the line is a comment (30_encoding.md R63). -/
def dropComment (line : List Char) : List Char := line.takeWhile (fun c => c ≠ ';')

/-- A finished word put before the later ones; an empty one is none. -/
def pushWord (w : List Char) (ws : List (List Char)) : List (List Char) :=
  if w = [] then ws else w :: ws

/-- The word under way at the front of a text, and the words after it; a comma is a word of its own. -/
def splitWords : List Char → List Char × List (List Char)
  | [] => ([], [])
  | c :: cs =>
    let (w, ws) := splitWords cs
    if c = ' ' ∨ c = '\t' then ([], pushWord w ws)
    else if c = ',' then ([], [','] :: pushWord w ws)
    else (c :: w, ws)

/-- The words of a text. -/
def words (cs : List Char) : List (List Char) := pushWord (splitWords cs).1 (splitWords cs).2

/-- The command of the two byte operands. -/
def makeBytes (milli : Bool) (m l : Nat) : AsmLine :=
  if WellFormed.operand m && WellFormed.operand l then
    .command (if milli then .raw2mms2 (BitVec.ofNat 8 m) (BitVec.ofNat 8 l)
      else .raw2ms2 (BitVec.ofNat 8 m) (BitVec.ofNat 8 l))
  else .error .outOfRange

/-- The one command a `.W` form expands to (30_encoding.md R64). -/
def makeWord (milli : Bool) (raw : Nat) : AsmLine :=
  if WellFormed.rawOperand raw then
    .command (if milli then raw2mms2W (BitVec.ofNat 16 raw) else raw2ms2W (BitVec.ofNat 16 raw))
  else .error .outOfRange

/-- The operands of a mnemonic (30_encoding.md R63: `<msb>, <lsb>`; R64: `<raw>`). -/
def assembleOperands (form : AsmForm) (ops : List (List Char)) : AsmLine :=
  match form, ops with
  | .bytes milli, [m, [','], l] =>
    match readNumber m, readNumber l with
    | some m, some l => makeBytes milli m l
    | _, _ => .error .notANumber
  | .word milli, [raw] =>
    match readNumber raw with
    | some raw => makeWord milli raw
    | none => .error .notANumber
  | _, _ => .error .wrongOperands

/-- One line of a command list (30_encoding.md R63, R64). -/
def assembleLine (line : List Char) : AsmLine :=
  match words (dropComment line) with
  | [] => .empty
  | name :: ops =>
    match asmNames.lookup name with
    | some form => assembleOperands form ops
    | none => .error .unknownMnemonic

end Sys2Proof.Machine
end

