-- ==== Sys2Proof/Safety.lean ====
section
/-!
DEFINITION. The terms in which claims about CONV14 are stated: the real number an image stands for and
what "nearest, ties to even" means, the closed forms of the two results, the invariant of the machine, what
the host can tell apart, runs, and the duty of the host that makes a run free of faults.
-/

namespace Sys2Proof.Machine

/-- The amounts the SXU can produce, −8192..8191 (40_sxu.md R74). -/
def inRange (a : Half) : Prop := -8192 ≤ a.toInt ∧ a.toInt ≤ 8191

/-- `val(x)`: the number the image of a zero or normal value stands for (00_scope.md R12). -/
def val (f : Format) (a : BitVec f.flen) : ℚ :=
  (if signBit f a then -1 else 1) * (significand f a : ℚ) * (2 : ℚ) ^ scale f a

/-- The image with the sign bit flipped. -/
def flipSign (f : Format) (a : BitVec f.flen) : BitVec f.flen := a ^^^ BitVec.twoPow f.flen (f.flen - 1)

/-- `a` is a zero or normal value nearest to `q` among them, and where another one is as near, the last
fraction bit of `a` is 0 (00_scope.md R12, 42_fmac.md R95). -/
def IsNearestEven (f : Format) (q : ℚ) (a : BitVec f.flen) : Prop :=
  isOperand f a = true ∧
  (∀ b, isOperand f b = true → |val f a - q| ≤ |val f b - q|) ∧
  (∀ b, isOperand f b = true → |val f b - q| = |val f a - q| → val f b ≠ val f a →
    fracField f a % 2 = 0)

/-- The least normal magnitude of the format. -/
def minNormal (f : Format) : ℚ := (2 : ℚ) ^ (1 - (bias f : Int))

/-- The least magnitude that rounds to nothing finite: half a unit in the last place above the greatest
finite number, `(2^(p+1) − 1) · 2^(emax − p)` with `emax` the bias (42_fmac.md R95). Below it the number
rounds to a finite one. -/
def roundLimit (f : Format) : ℚ :=
  ((2 : ℚ) ^ (fracBits f + 2) - 1) * (2 : ℚ) ^ ((bias f : Int) - fracBits f - 1)

/-- `val(K_G_F) = gNum / 2^gDen` (42_fmac.md R94). -/
def gNum : Format → Nat
  | .binary32 => 5141509
  | .binary64 => 5520653160719109

/-- See `gNum`. -/
def gDen : Format → Nat
  | .binary32 => 19
  | .binary64 => 49

/-- The closed form of `RAW2MS2`, one rounding in all: `rnd_F(N × gNum / 2^(gDen + 12))` (42_fmac.md
R100). -/
def closedMs2 (f : Format) (n : Int) : Option (BitVec f.flen) :=
  rnd f (decide (n < 0)) (n.natAbs * gNum f) (-((gDen f : Int) + 12))

/-- The closed form of `RAW2MMS2` (43_simul.md R120). -/
def closedMms2 (n : Int) : Int := (n * 980665).tdiv 40960

/-- The reading of 42_fmac.md R107 that the spec does NOT take: the product in binary64, narrowed to
binary32 at the end. -/
def narrowAtEnd (n : Int) : Option (BitVec 32) :=
  match closedMs2 .binary64 n with
  | some r =>
    rnd .binary32 (signBit .binary64 r) (significand .binary64 r) (scale .binary64 r)
  | none => none

/-- What every run keeps true of the registers: where a valid bit says that a register holds a value, it
is a value that some command leaves there (10_state.md R21 to R26). -/
def Regs.Inv {f : Format} (r : Regs f) : Prop :=
  (r.fv = 1#1 ∨ r.iv = 1#1 → inRange r.amt) ∧
  (r.fv = 1#1 → ∃ a, inRange a ∧ r.facc = facc3 f a) ∧
  (r.iv = 1#1 → ∃ a, inRange a ∧ r.prod = prodOf a ∧ r.ires = iresOf a)

/-- What every run keeps true of what the host has been given: a number read from a result register is
the result of some command, and where `⊥` was read the run is faulted (70_reset_and_hazards.md R153). -/
def StateAt.ReadingsInv {f : Format} (s : StateAt f) : Prop :=
  (∀ v, Reading.facc (some v) ∈ s.readings → ∃ a, inRange a ∧ v = facc3 f a) ∧
  (∀ v, Reading.ires (some v) ∈ s.readings → ∃ a, inRange a ∧ v = iresOf a) ∧
  (Reading.facc none ∈ s.readings ∨ Reading.ires none ∈ s.readings → s.faulted = true)

/-- The invariant of the machine at a format. -/
def StateAt.Inv {f : Format} (s : StateAt f) : Prop := s.toRegs.Inv ∧ s.ReadingsInv

/-- The invariant of this hardware's machine. -/
def State.Inv (s : State) : Prop := s.toStateAt.Inv

/-- Two states that nothing the host can ever do tells apart: the valid bits, the two values it may read
and its own side of the ports agree. What `AMT` and `PROD` hold, and the bits of a result register whose
valid bit is 0, may differ (10_state.md R33, 00_scope.md R15). -/
structure SameToHost {f : Format} (s t : StateAt f) : Prop where
  fv : s.fv = t.fv
  iv : s.iv = t.iv
  heldFacc : s.heldFacc = t.heldFacc
  heldIres : s.heldIres = t.heldIres
  pending : s.pending = t.pending
  readings : s.readings = t.readings
  faulted : s.faulted = t.faulted

/-- `k` steps of the machine at a format (70_reset_and_hazards.md R159: a run is the fold of the step
function). A fault of the host does not end it: it is kept in `faulted` to the end, a reset on the way
included (log entry 5). -/
def runAt {f : Format} : Nat → StateAt f → StateAt f
  | 0, s => s
  | k + 1, s => runAt k (stepAt s)

/-- `k` steps of this hardware's machine, by `step`. -/
def run : Nat → State → Host.Outcome State Fault Refusal
  | 0, s => .next s
  | k + 1, s =>
    match step s with
    | .next t => run k t
    | .fault r => .fault r
    | .refused r => .refused r

/-- The duty of the host (70_reset_and_hazards.md R153, R155): along its list of actions, from valid
bits `fv` and `iv`, it reads a result only when the valid bit is 1. -/
def hostDuty (fv iv : Bool) : List HostAction → Bool
  | [] => true
  | .present w :: rest => if w.getLsbD 16 then hostDuty fv true rest else hostDuty true iv rest
  | .readStatus :: rest => hostDuty fv iv rest
  | .readFacc :: rest => fv && hostDuty fv iv rest
  | .readIres :: rest => iv && hostDuty fv iv rest
  | .reset _ :: rest => hostDuty false false rest

/-- The last command of a kind in a list of commands. -/
def lastOf (op : BitVec 1) (is : List Instr) : Option Instr := is.reverse.find? (fun i => i.op == op)

/-- The amount a command works from. -/
def amtOf (i : Instr) : Half := sxu i.msb i.lsb

/-- The registers after a list of commands, each result a function of the last command of its kind
(10_state.md R34, R36). -/
def afterCommands {f : Format} (is : List Instr) (r : Regs f) : Regs f :=
  { amt := (is.getLast?.map amtOf).getD r.amt
    facc := ((lastOf 0#1 is).map (fun i => facc3 f (amtOf i))).getD r.facc
    prod := ((lastOf 1#1 is).map (fun i => prodOf (amtOf i))).getD r.prod
    ires := ((lastOf 1#1 is).map (fun i => iresOf (amtOf i))).getD r.ires
    fv := if (lastOf 0#1 is).isSome then 1#1 else r.fv
    iv := if (lastOf 1#1 is).isSome then 1#1 else r.iv }

end Sys2Proof.Machine
end

