-- ==== Sys2Proof/Certificates/Slice0/Obligations.lean ====
section
/-!
DEFINITION. The statements for the provers, from the numbered rules of spec/. Amounts are 16-bit words;
`inRange` is the range the SXU produces; `f` is either format unless the docstring names one. Wherever a
statement names the fields `pending` and `readings` of State it rests on the model's own framing of the
host (log entry 3); where it names `faulted`, on the model's record of the run's fault (log entry 5);
where it names a `held` view, on the model's reading of `⊥` (log entry 2).
-/

open Sys2Proof Sys2Proof.Machine

/-! ### Encoding -/

/-- 30_encoding.md R65: `decode` tests `CMD[16]`, and `decode` and `encode` are inverse bijections
between the 2^17 words and the triples of operation, msb and lsb. -/
def Obligations.DecodeEncodeBijection : Prop :=
  (∀ w : CommandWord, w.getLsbD 16 = false →
    decode w = .raw2ms2 (w.extractLsb' 8 8) (w.extractLsb' 0 8)) ∧
  (∀ w : CommandWord, w.getLsbD 16 = true →
    decode w = .raw2mms2 (w.extractLsb' 8 8) (w.extractLsb' 0 8)) ∧
  (∀ i : Instr, decode (encode i) = i) ∧
  (∀ w : CommandWord, encode (decode w) = w)

/-- 30_encoding.md R55: where the three fields stand, the word as a number, its range, and that its low
16 bits are the document's `raw`. -/
def Obligations.CommandWordLayout : Prop :=
  ∀ i : Instr,
    (encode i).extractLsb' 16 1 = i.op ∧
    (encode i).extractLsb' 8 8 = i.msb ∧
    (encode i).extractLsb' 0 8 = i.lsb ∧
    (encode i).extractLsb' 0 16 = rawWord i.msb i.lsb ∧
    (encode i).toNat = i.op.toNat * 0x10000 + i.msb.toNat * 0x100 + i.lsb.toNat ∧
    (encode i).toNat ≤ 0x1FFFF

/-- Words of 95_test_vectors.md decode to the command written beside them, through the opcode table's
numbering of bits too. -/
def Obligations.SpecWordsDecode : Prop :=
  decode 0x01FFF#17 = .raw2ms2 0x1F#8 0xFF#8 ∧
  decode 0x11FFF#17 = .raw2mms2 0x1F#8 0xFF#8 ∧
  decode 0x1ABCD#17 = .raw2mms2 0xAB#8 0xCD#8 ∧
  decode 0x00000#17 = .raw2ms2 0x00#8 0x00#8 ∧
  decode 0x1FFFF#17 = .raw2mms2 0xFF#8 0xFF#8 ∧
  decodeTableWord 24 0x13FFF = some (.raw2mms2 0x3F#8 0xFF#8) ∧
  decodeTableWord 16 0xFFFB = some (.raw2ms2 0xFF#8 0xFB#8)

/-- 30_encoding.md R60: every number below 2^17 is a legal command, and (R55, R58) no other is one. -/
def Obligations.AllCommandWordsLegal : Prop :=
  ∀ w : Nat, (w < 0x20000 → decodeNumber w = .command (decode (BitVec.ofNat 17 w))) ∧
    (0x20000 ≤ w → decodeNumber w = .rejected .notACommandWord)

/-- 30_encoding.md R64, R63: the mnemonic `RAW2MS2` and the document's two names for it are the form of
two bytes of that command, and so for `RAW2MMS2`; the two `.W` names are the forms of one operand. A `.W`
form expands to the one command whose word is `{OP, raw}`, and an operand above 65535 is an assembly
error. That a name is matched letter for letter, in a table of character lists, is the model's reading
(log entry 7). -/
def Obligations.AliasesAndWordForms : Prop :=
  asmNames.lookup ['R', 'A', 'W', '2', 'M', 'S', '2'] = some (.bytes false) ∧
  asmNames.lookup ['R', 'a', 'w', 'T', 'o', 'A', 'c', 'c', 'e', 'l', 'e', 'r', 'a', 't', 'i',
      'o', 'n'] = some (.bytes false) ∧
  asmNames.lookup ['r', 'a', 'w', '_', 't', 'o', '_', 'a', 'c', 'c', 'e', 'l', 'e', 'r', 'a',
      't', 'i', 'o', 'n', '_', 'm', 's', '2'] = some (.bytes false) ∧
  asmNames.lookup ['R', 'A', 'W', '2', 'M', 'M', 'S', '2'] = some (.bytes true) ∧
  asmNames.lookup ['R', 'a', 'w', 'T', 'o', 'A', 'c', 'c', 'e', 'l', 'e', 'r', 'a', 't', 'i',
      'o', 'n', 'M', 'i', 'l', 'l', 'i'] = some (.bytes true) ∧
  asmNames.lookup ['r', 'a', 'w', '_', 't', 'o', '_', 'a', 'c', 'c', 'e', 'l', 'e', 'r', 'a',
      't', 'i', 'o', 'n', '_', 'm', 'm', 's', '2'] = some (.bytes true) ∧
  asmNames.lookup ['R', 'A', 'W', '2', 'M', 'S', '2', '.', 'W'] = some (.word false) ∧
  asmNames.lookup ['R', 'A', 'W', '2', 'M', 'M', 'S', '2', '.', 'W'] = some (.word true) ∧
  (∀ raw : Half,
    (encode (raw2ms2W raw)).toNat = raw.toNat ∧
    (encode (raw2mms2W raw)).toNat = 0x10000 + raw.toNat) ∧
  (∀ raw : Nat,
    (raw ≤ 65535 →
      makeWord false raw = .command (raw2ms2W (BitVec.ofNat 16 raw)) ∧
      makeWord true raw = .command (raw2mms2W (BitVec.ofNat 16 raw))) ∧
    (65535 < raw → ∀ milli, makeWord milli raw = .error .outOfRange))

/-- 30_encoding.md R63: an operand outside 0..255 is an assembly error and not a command, and two
operands in range are the command of those two bytes, msb first. -/
def Obligations.AssemblyOperandRange : Prop :=
  ∀ m l : Nat,
    (m ≤ 255 ∧ l ≤ 255 →
      makeBytes false m l = .command (.raw2ms2 (BitVec.ofNat 8 m) (BitVec.ofNat 8 l)) ∧
      makeBytes true m l = .command (.raw2mms2 (BitVec.ofNat 8 m) (BitVec.ofNat 8 l))) ∧
    (255 < m ∨ 255 < l → ∀ milli, makeBytes milli m l = .error .outOfRange)

/-! ### The SXU -/

/-- 40_sxu.md R70 to R73: the four steps as numbers and as bits. -/
def Obligations.SxuStepsAsStated : Prop :=
  (∀ m l : Byte, (rawWord m l).toNat = m.toNat * 256 + l.toNat) ∧
  (∀ raw : Half, ∃ m l : Byte, rawWord m l = raw) ∧
  (∀ raw : Half,
    (shifted raw).toNat = raw.toNat * 4 % 65536 ∧
    (shifted raw).extractLsb' 2 14 = raw.extractLsb' 0 14 ∧
    (shifted raw).extractLsb' 0 2 = 0#2 ∧
    (shifted raw).toInt = (shifted raw).toNat - (if raw.getLsbD 13 then 65536 else 0) ∧
    (shifted raw).getLsbD 15 = raw.getLsbD 13 ∧
    -32768 ≤ (shifted raw).toInt ∧ (shifted raw).toInt ≤ 32764 ∧
    (amount (shifted raw)).toInt * 4 = (shifted raw).toInt) ∧
  (∀ t : Half,
    (amount t).toInt = t.toInt.fdiv 4 ∧
    (amount t).getLsbD 15 = t.getLsbD 15 ∧ (amount t).getLsbD 14 = t.getLsbD 15 ∧
    (amount t).extractLsb' 0 14 = t.extractLsb' 2 14) ∧
  rawWord 0x1F#8 0xFF#8 = 0x1FFF#16 ∧
  shifted 0x1FFF#16 = 0x7FFC#16 ∧ shifted 0x2000#16 = 0x8000#16 ∧ shifted 0xFFFF#16 = 0xFFFC#16 ∧
  (0x7FFC#16).toInt = 32764 ∧ (0x8000#16).toInt = -32768 ∧ (0xFFFC#16).toInt = -4 ∧
  (amount 0x7FFC#16).toInt = 8191 ∧ (amount 0x8000#16).toInt = -8192 ∧ (amount 0xFFFC#16).toInt = -1

/-- 40_sxu.md R76: the amount is the low fourteen bits of `raw`, `{msb[5:0], lsb}`, read as a
two's-complement number whose sign bit is `raw[13] = msb[5]`. -/
def Obligations.SxuIsSignedLowFourteen : Prop :=
  ∀ m l : Byte,
    (sxu m l).toInt = ((rawWord m l).extractLsb' 0 14).toInt ∧
    (sxu m l).toInt =
      ((rawWord m l).toNat % 16384 : Nat) - (if (rawWord m l).getLsbD 13 then (16384 : Int) else 0) ∧
    sxu m l = ((rawWord m l).extractLsb' 0 14).signExtend 16 ∧
    (rawWord m l).toNat % 16384 = m.toNat % 64 * 256 + l.toNat ∧
    (rawWord m l).getLsbD 13 = m.getLsbD 5

/-- 40_sxu.md R77: `msb[7:6]` influence nothing, and two samples give the same amount exactly when they
differ in `raw[15:14]` alone, so every amount comes from four values of `raw`. -/
def Obligations.SxuIgnoresTopTwoBits : Prop :=
  (∀ m l : Byte, sxu m l = sxu (m &&& 0x3F#8) l) ∧
  (∀ m l m' l' : Byte, sxu m l = sxu m' l' ↔
    rawWord m' l' = rawWord m l ∨ rawWord m' l' = rawWord m l ^^^ 0x4000#16 ∨
    rawWord m' l' = rawWord m l ^^^ 0x8000#16 ∨ rawWord m' l' = rawWord m l ^^^ 0xC000#16) ∧
  ((sxu 0xFF#8 0xFF#8).toInt = -1 ∧ (sxu 0xBF#8 0xFF#8).toInt = -1 ∧ (sxu 0x7F#8 0xFF#8).toInt = -1 ∧
    (sxu 0x3F#8 0xFF#8).toInt = -1) ∧
  ((sxu 0xE0#8 0x00#8).toInt = -8192 ∧ (sxu 0xA0#8 0x00#8).toInt = -8192 ∧
    (sxu 0x60#8 0x00#8).toInt = -8192 ∧ (sxu 0x20#8 0x00#8).toInt = -8192) ∧
  ((sxu 0xC0#8 0x00#8).toInt = 0 ∧ (sxu 0x80#8 0x00#8).toInt = 0 ∧ (sxu 0x40#8 0x00#8).toInt = 0 ∧
    (sxu 0x00#8 0x00#8).toInt = 0)

/-- 40_sxu.md R78, and the theorem R83 asks for: the shift form of R70 to R73, the explicit form that
tests bit 13, the XOR form and `signed_14(raw[13:0])` give the same amount for every one of the 65536
values of `raw`. The one-line formula R83 speaks of is not printed anywhere and is not stated. -/
def Obligations.SxuFormsAgree : Prop :=
  ∀ m l : Byte,
    (sxu m l).toInt = signed14 (rawWord m l) ∧
    (sxu m l).toInt = explicitForm (rawWord m l) ∧
    (sxu m l).toInt = xorForm (rawWord m l) ∧
    (8192 ≤ (rawWord m l).toNat % 16384 →
      (sxu m l).toInt = ((rawWord m l).toNat % 16384 : Nat) - (16384 : Int)) ∧
    ((rawWord m l).toNat % 16384 < 8192 →
      (sxu m l).toInt = ((rawWord m l).toNat % 16384 : Nat)) ∧
    (sxu m l).toInt = (((rawWord m l &&& 0x3FFF#16) ^^^ 0x2000#16).toNat : Int) - 0x2000

/-- 40_sxu.md R74: the amounts are exactly −8192..8191. -/
def Obligations.SxuRangeIsExact : Prop :=
  (∀ m l : Byte, inRange (sxu m l)) ∧ (∀ a : Half, inRange a → ∃ m l : Byte, sxu m l = a)

/-- 40_sxu.md R82: where the extremes, zero and −1 come from, and that the 14-bit negation of the field
negates the amount except at `0x2000`, which is its own negation. -/
def Obligations.SxuExtremesAndNegation : Prop :=
  (∀ m l : Byte,
    -8192 ≤ (sxu m l).toInt ∧ (sxu m l).toInt ≤ 8191 ∧
    ((sxu m l).toInt = 8191 ↔ (rawWord m l).toNat % 16384 = 0x1FFF) ∧
    ((sxu m l).toInt = -8192 ↔ (rawWord m l).toNat % 16384 = 0x2000) ∧
    ((sxu m l).toInt = 0 ↔ (rawWord m l).toNat % 16384 = 0x0000) ∧
    ((sxu m l).toInt = -1 ↔ (rawWord m l).toNat % 16384 = 0x3FFF)) ∧
  (∀ m l m' l' : Byte,
    (rawWord m' l').toNat % 16384 = (16384 - (rawWord m l).toNat % 16384) % 16384 →
    if (rawWord m l).toNat % 16384 = 0x2000 then
      (sxu m' l').toInt = -8192 ∧ (sxu m l).toInt = -8192
    else (sxu m' l').toInt = -(sxu m l).toInt) ∧
  (∀ raw : Half, (-raw).toNat % 16384 = (16384 - raw.toNat % 16384) % 16384)

/-- 40_sxu.md R79, R80: masking alone and a logical right shift both give `raw[13:0]` unsigned, right
where `raw[13] = 0` and too large by 16384 where it is 1. -/
def Obligations.UnsignedFormsAreWrong : Prop :=
  (∀ m l : Byte,
    (shifted (rawWord m l) >>> 2).toNat = (rawWord m l &&& 0x3FFF#16).toNat ∧
    ((rawWord m l &&& 0x3FFF#16).toNat : Int) =
      (sxu m l).toInt + (if (rawWord m l).getLsbD 13 then 16384 else 0)) ∧
  (sxu 0x3F#8 0xFF#8).toInt = -1 ∧ (rawWord 0x3F#8 0xFF#8 &&& 0x3FFF#16).toNat = 16383 ∧
  (sxu 0x20#8 0x00#8).toInt = -8192 ∧ (rawWord 0x20#8 0x00#8 &&& 0x3FFF#16).toNat = 8192 ∧
  amount 0xFFFC#16 = 0xFFFF#16 ∧ 0xFFFC#16 >>> 2 = 0x3FFF#16

/-- 40_sxu.md R81: the same shifts in a 32-bit word keep `raw[15:14]` and give `raw` itself, unsigned,
which is the amount only below 8192. -/
def Obligations.WideShiftIsWrong : Prop :=
  ∀ m l : Byte,
    ((((rawWord m l).setWidth 32 <<< 2).sshiftRight 2).toInt = (rawWord m l).toNat) ∧
    ((((rawWord m l).setWidth 32 <<< 2).sshiftRight 2).toInt = (sxu m l).toInt ↔
      (rawWord m l).toNat < 8192)

/-! ### The converter and the constants -/

/-- 41_i2f.md R86: the conversion is exact, for every 16-bit integer and in both formats, and rounding
the integer gives the same image. -/
def Obligations.ConversionIsExact : Prop :=
  ∀ (f : Format) (n : Half),
    isOperand f (i2f f n) = true ∧ val f (i2f f n) = n.toInt ∧
    rnd f n.msb n.toInt.natAbs 0 = some (i2f f n)

/-- 41_i2f.md R87, R88: zero converts to an image of all zero bits; another integer to sign, exponent
field and fraction field as the rule gives them, and of an amount at most the top 13 fraction bits can
be nonzero. -/
def Obligations.ConversionImage : Prop :=
  (∀ f : Format, i2f f 0#16 = 0#f.flen) ∧
  (∀ (f : Format) (n : Half) (e : Nat), 2 ^ e ≤ n.toInt.natAbs → n.toInt.natAbs < 2 ^ (e + 1) →
    signBit f (i2f f n) = decide (n.toInt < 0) ∧
    expField f (i2f f n) = e + bias f ∧
    fracField f (i2f f n) = (n.toInt.natAbs - 2 ^ e) * 2 ^ (fracBits f - e)) ∧
  (∀ (f : Format) (n : Half), inRange n → fracField f (i2f f n) % 2 ^ (fracBits f - 13) = 0) ∧
  i2f .binary32 1#16 = 0x3F800000#32 ∧ i2f .binary32 (-1#16) = 0xBF800000#32 ∧
  i2f .binary32 8191#16 = 0x45FFF800#32 ∧ i2f .binary32 (-8192#16) = 0xC6000000#32

/-- 42_fmac.md R94, 10_state.md R29: the two images, the values they stand for, and that each is the
member of the format nearest to its constant. -/
def Obligations.ConstantsAreNearest : Prop :=
  (kSens .binary32 = 0x39800000#32 ∧ kSens .binary64 = 0x3F30000000000000#64) ∧
  (kG .binary32 = 0x411CE80A#32 ∧ kG .binary64 = 0x40239D013A92A305#64) ∧
  (∀ f, val f (kSens f) = 1 / 4096) ∧
  (∀ f, val f (kG f) = (gNum f : ℚ) / 2 ^ gDen f) ∧
  (∀ f, IsNearestEven f (980665 / 100000) (kG f)) ∧
  val .binary32 (kG .binary32) - 980665 / 100000 = 1617431640625 / 10 ^ 19 ∧
  576 / 10 ^ 18 < 980665 / 100000 - val .binary64 (kG .binary64) ∧
  980665 / 100000 - val .binary64 (kG .binary64) < 578 / 10 ^ 18

/-! ### Rounding and the multiplier -/

/-- 00_scope.md R12, 42_fmac.md R95: wherever `rnd` answers, its answer has the given sign and is the
member of the format nearest to the number, a tie going to the even fraction. Where `rnd` answers is said
by ConversionIsExact, MultiplierRoundsExactProduct and Ms2ClosedForm. That a zero answer keeps the sign it
is given, a negative zero for `m = 0` and `s = true`, is the model's deduction (log entry 9). -/
def Obligations.RoundingIsNearestEven : Prop :=
  ∀ (f : Format) (s : Bool) (m : Nat) (x : Int) (r : BitVec f.flen), rnd f s m x = some r →
    signBit f r = s ∧ IsNearestEven f ((if s then -1 else 1) * (m : ℚ) * (2 : ℚ) ^ x) r

/-- 42_fmac.md R96: for operands that are zero or normal, and a product that is zero or whose magnitude
is at least the least normal one and rounds to a finite one, `fmul` is the product rounded to nearest
even, its sign the XOR of the operands' signs. Nothing is said of the operands and products for which the
spec has no rule (log entry 4). That the XOR gives the sign of a product with a zero operand too is the
model's deduction (log entry 9). -/
def Obligations.MultiplierRoundsExactProduct : Prop :=
  ∀ (f : Format) (a b : BitVec f.flen), isOperand f a = true → isOperand f b = true →
    (val f a * val f b = 0 ∨
      (minNormal f ≤ |val f a * val f b| ∧ |val f a * val f b| < roundLimit f)) →
    IsNearestEven f (val f a * val f b) (fmul f a b) ∧
    signBit f (fmul f a b) = (signBit f a ^^ signBit f b)

/-- 42_fmac.md R99: the first multiplication is exact, and only lowers the exponent field by 12. -/
def Obligations.SensitivityProductIsExact : Prop :=
  ∀ (f : Format) (a : Half), inRange a →
    val f (facc2 f a) = (a.toInt : ℚ) / 4096 ∧
    (a = 0#16 → facc2 f a = 0#f.flen) ∧
    (a ≠ 0#16 →
      signBit f (facc2 f a) = signBit f (facc1 f a) ∧
      expField f (facc2 f a) + 12 = expField f (facc1 f a) ∧
      fracField f (facc2 f a) = fracField f (facc1 f a))

/-- 42_fmac.md R100: the result of `RAW2MS2` is the exact product of the amount, 2^−12 and the float
constant rounded once, in both formats; the integer numerators need at most 36 and 66 bits. -/
def Obligations.Ms2ClosedForm : Prop :=
  (∀ (f : Format) (m l : Byte),
    closedMs2 f (sxu m l).toInt = some (facc3 f (sxu m l)) ∧
    IsNearestEven f ((sxu m l).toInt / 4096 * val f (kG f)) (facc3 f (sxu m l))) ∧
  (∀ m l : Byte,
    (sxu m l).toInt.natAbs * gNum .binary32 < 2 ^ 36 ∧ (sxu m l).toInt.natAbs * gNum .binary64 < 2 ^ 66)

/-- 42_fmac.md R101: multiplying by the two constants in the other order, or by their product, gives the
same bits for every amount in both formats. -/
def Obligations.FactorOrderIrrelevant : Prop :=
  ∀ (f : Format) (a : Half), inRange a →
    fmul f (fmul f (i2f f a) (kG f)) (kSens f) = facc3 f a ∧
    fmul f (i2f f a) (fmul f (kSens f) (kG f)) = facc3 f a

/-- 42_fmac.md R102: the results increase strictly with the amount, their extremes and their least
nonzero magnitudes, and the exponent fields they use. -/
def Obligations.Ms2RangeAndOrder : Prop :=
  (∀ (f : Format) (a b : Half), inRange a → inRange b → a.toInt < b.toInt →
    val f (facc3 f a) < val f (facc3 f b)) ∧
  (facc3 .binary32 8191#16 = 0x419CE323#32 ∧ facc3 .binary64 8191#16 = 0x40339C645288CE70#64) ∧
  (facc3 .binary32 (-8192#16) = 0xC19CE80A#32 ∧
    facc3 .binary64 (-8192#16) = 0xC0339D013A92A305#64) ∧
  (facc3 .binary32 1#16 = 0x3B1CE80A#32 ∧ facc3 .binary64 1#16 = 0x3F639D013A92A305#64) ∧
  (facc3 .binary32 (-1#16) = 0xBB1CE80A#32 ∧ facc3 .binary64 (-1#16) = 0xBF639D013A92A305#64) ∧
  (∀ a : Half, inRange a → a ≠ 0#16 →
    118 ≤ expField .binary32 (facc3 .binary32 a) ∧ expField .binary32 (facc3 .binary32 a) ≤ 131 ∧
    1014 ≤ expField .binary64 (facc3 .binary64 a) ∧ expField .binary64 (facc3 .binary64 a) ≤ 1027)

/-- 42_fmac.md R103: the result of `−N` is that of `N` with the sign bit flipped and every other bit
equal, for `N` in 1..8191; `−8192` has no positive partner. -/
def Obligations.Ms2OddSymmetry : Prop :=
  (∀ (f : Format) (a : Half), 1 ≤ a.toInt → a.toInt ≤ 8191 →
    facc3 f (-a) = flipSign f (facc3 f a) ∧ (-a).toInt = -a.toInt) ∧
  (∀ m l : Byte, (sxu m l).toInt ≠ 8192)

/-- 42_fmac.md R104: every value the accumulator takes is finite and normal, or all zero bits for the
amount 0, the two constants are normal, and the magnitude of a nonzero result lies between 0.00239 and 19.62. -/
def Obligations.Ms2NoSpecialValue : Prop :=
  (∀ f : Format, isNormal f (kSens f) = true ∧ isNormal f (kG f) = true) ∧
  ∀ (f : Format) (a : Half), inRange a →
    (a = 0#16 → facc1 f a = 0#f.flen ∧ facc2 f a = 0#f.flen ∧ facc3 f a = 0#f.flen) ∧
    (a ≠ 0#16 →
      isNormal f (facc1 f a) = true ∧ isNormal f (facc2 f a) = true ∧ isNormal f (facc3 f a) = true ∧
      239 / 100000 ≤ |val f (facc3 f a)| ∧ |val f (facc3 f a)| ≤ 1962 / 100)

/-- 42_fmac.md R105: the distance from the real-number formula, in each format. -/
def Obligations.Ms2Accuracy : Prop :=
  ∀ a : Half, inRange a →
    |val .binary32 (facc3 .binary32 a) - a.toInt * (980665 / 100000) / 4096|
      ≤ 12603759765625 / 10 ^ 19 ∧
    |val .binary64 (facc3 .binary64 a) - a.toInt * (980665 / 100000) / 4096| ≤ 29 / 10 ^ 16

/-- 42_fmac.md R109: the two results of one amount agree when the integer is divided by 10000, with the
stated bounds, and fail the document's property with 1000 for every amount but 0. -/
def Obligations.FloatIntegerCrossCheck : Prop :=
  ∀ a : Half, inRange a →
    |val .binary32 (facc3 .binary32 a) - (iresOf a).toInt / 10000| ≤ 100677490234375 / 10 ^ 18 ∧
    |val .binary64 (facc3 .binary64 a) - (iresOf a).toInt / 10000| ≤ 999877929676 / 10 ^ 16 ∧
    (|val .binary32 (facc3 .binary32 a) - (iresOf a).toInt / 1000| < 15 / 10000 ↔ a = 0#16) ∧
    (|val .binary64 (facc3 .binary64 a) - (iresOf a).toInt / 1000| < 15 / 10000 ↔ a = 0#16)

/-- 42_fmac.md R107: the reading the spec does not take, a binary64 product narrowed at the end, differs
from the binary32 result by at most one unit in the last place, and does differ first at the amounts
±17. -/
def Obligations.NarrowAtEndDiffersByOneUlp : Prop :=
  (∀ a : Half, inRange a → ∃ r, narrowAtEnd a.toInt = some r ∧
    (r.toNat ≤ (facc3 .binary32 a).toNat + 1 ∧ (facc3 .binary32 a).toNat ≤ r.toNat + 1)) ∧
  (∀ a : Half, inRange a → a.toInt.natAbs < 17 → narrowAtEnd a.toInt = some (facc3 .binary32 a)) ∧
  facc3 .binary32 17#16 = 0x3D26B68B#32 ∧ narrowAtEnd 17 = some 0x3D26B68A#32

/-- 42_fmac.md R95: the magnitudes of N at which the exact product `|N| · gNum` lies exactly halfway
between two values (the bits below the last kept place are a one and zeros), for each format, and the
two results the rule prints for them. -/
def Obligations.TieAmounts : Prop :=
  (∀ n : Nat, 1 ≤ n → n ≤ 8192 →
    (2 * (n * gNum .binary32 % 2 ^ ((n * gNum .binary32).log2 - 23)) =
        2 ^ ((n * gNum .binary32).log2 - 23) ↔
      n ∈ [5, 10, 20, 40, 80, 160, 320, 640, 1280, 2560, 5120])) ∧
  (∀ n : Nat, 1 ≤ n → n ≤ 8192 →
    (2 * (n * gNum .binary64 % 2 ^ ((n * gNum .binary64).log2 - 52)) =
        2 ^ ((n * gNum .binary64).log2 - 52) ↔
      n ∈ [3, 6, 12, 24, 48, 96, 192, 384, 768, 1536, 3072, 6144])) ∧
  facc3 .binary32 5#16 = 0x3C44220C#32 ∧ facc3 .binary64 3#16 = 0x3F7D6B81D7DBF488#64

/-! ### RAW2MS2 -/

/-- 42_fmac.md R98: `RAW2MS2` completes for every operand in every state, with the registers the
pseudocode gives and every other register as it was; the same command again, its `msb[7:6]` cleared,
leaves the same bits; its corner cases and its worked example. -/
def Obligations.Raw2ms2Completes : Prop :=
  (∀ (m l : Byte) (s : State), ∃ t, exec (.raw2ms2 m l) s = .next t ∧ t.toRegs = { s.toRegs with
    amt := sxu m l
    facc := fmul Config.fmt (fmul Config.fmt (i2f Config.fmt (sxu m l)) (kSens Config.fmt))
      (kG Config.fmt)
    fv := 1#1 }) ∧
  (∀ (m l : Byte) (s t : State), exec (.raw2ms2 m l) s = .next t →
    ∃ u, exec (.raw2ms2 (m &&& 0x3F#8) l) t = .next u ∧ u.facc = t.facc) ∧
  (∀ m l : Byte, encode (.raw2ms2 m l) = 0#1 ++ m ++ l) ∧
  (∀ f : Format, facc3 f 0#16 = 0#f.flen ∧ facc3 f 4096#16 = kG f) ∧
  (∀ f : Format, val f (facc3 f (-8192#16)) = -2 * val f (kG f)) ∧
  facc3 .binary32 (-8192#16) = 0xC19CE80A#32 ∧
  decode 0x01FFF#17 = .raw2ms2 0x1F#8 0xFF#8 ∧ (sxu 0x1F#8 0xFF#8).toInt = 8191 ∧
  facc1 .binary32 8191#16 = 0x45FFF800#32 ∧ facc2 .binary32 8191#16 = 0x3FFFF800#32 ∧
  facc3 .binary32 8191#16 = 0x419CE323#32 ∧ facc3 .binary64 8191#16 = 0x40339C645288CE70#64

/-! ### The SIM -/

/-- 43_simul.md R113, R114, R115: the operand is widened with its sign, the 64-bit product is the exact
one (dividing first would give 0), its range below 2^33, and where it leaves the signed 32-bit range. -/
def Obligations.ProductNeverOverflows : Prop :=
  (∀ a : Half, (widen a).toInt = a.toInt) ∧
  widen 0xFFFF#16 = 0xFFFFFFFFFFFFFFFF#64 ∧
  (∀ a : Half, inRange a →
    (prodOf a).toInt = a.toInt * 980665 ∧ a.toInt.tdiv 40960 * 980665 = 0 ∧
    (prodOf a).toInt.natAbs < 2 ^ 33 ∧
    -8033607680 ≤ (prodOf a).toInt ∧ (prodOf a).toInt ≤ 8032627015 ∧
    ((prodOf a).toInt < -2 ^ 31 ∨ 2 ^ 31 - 1 < (prodOf a).toInt ↔ 2190 ≤ a.toInt.natAbs)) ∧
  (prodOf (-8192#16)).toInt = -8033607680 ∧ (prodOf 8191#16).toInt = 8032627015 ∧
  2 ^ 32 < (prodOf (-8192#16)).toInt.natAbs

/-- 43_simul.md R117: the quotient fits 32 bits, so the narrowing loses nothing. -/
def Obligations.NarrowingIsLossless : Prop :=
  ∀ a : Half, inRange a →
    iresOf a = (quotient (prodOf a)).extractLsb' 0 32 ∧
    (iresOf a).toInt = (quotient (prodOf a)).toInt ∧
    (quotient (prodOf a)).toInt.natAbs ≤ 196133

/-- 43_simul.md R120: the result of `RAW2MMS2` is the truncated quotient of the exact product, for every
one of the 65536 inputs, and the reduced form gives the same number. -/
def Obligations.Mms2ClosedForm : Prop :=
  ∀ m l : Byte,
    (iresOf (sxu m l)).toInt = closedMms2 (sxu m l).toInt ∧
    closedMms2 (sxu m l).toInt = ((sxu m l).toInt * 196133).tdiv 8192 ∧
    ((sxu m l).toInt * 196133).natAbs ≤ 1606721536

/-- 43_simul.md R119: the range of the result, its sign copies, and that it increases strictly with the
amount. -/
def Obligations.Mms2RangeAndOrder : Prop :=
  (∀ a : Half, inRange a →
    -196133 ≤ (iresOf a).toInt ∧ (iresOf a).toInt ≤ 196109 ∧
    (∀ i, 18 ≤ i → i ≤ 31 → (iresOf a).getLsbD i = (iresOf a).getLsbD 31)) ∧
  (∀ a b : Half, inRange a → inRange b → a.toInt < b.toInt → (iresOf a).toInt < (iresOf b).toInt) ∧
  (iresOf (-8192#16)).toInt = -196133 ∧ (iresOf 8191#16).toInt = 196109

/-- 43_simul.md R116, R122: the quotient of a non-negative product is its floor, of a negative one its
ceiling; so it differs from the floor, by one, for every negative amount but −8192. -/
def Obligations.TruncationIsNotFloor : Prop :=
  (∀ a : Half, inRange a →
    (0 ≤ a.toInt → (iresOf a).toInt = (a.toInt * 980665).fdiv 40960) ∧
    (a.toInt < 0 → (iresOf a).toInt = -(-(a.toInt * 980665)).fdiv 40960) ∧
    (a.toInt < 0 → a.toInt ≠ -8192 → (iresOf a).toInt = (a.toInt * 980665).fdiv 40960 + 1)) ∧
  (iresOf (-1#16)).toInt = -23 ∧ Int.fdiv (-980665) 40960 = -24 ∧
  (iresOf (-8191#16)).toInt = -196109 ∧ Int.fdiv (-8032627015) 40960 = -196110

/-- 43_simul.md R123: the result of `−N` is minus that of `N`, for `N` in 1..8191; `−8192` has no
positive partner. -/
def Obligations.Mms2OddSymmetry : Prop :=
  (∀ a : Half, 1 ≤ a.toInt → a.toInt ≤ 8191 →
    (iresOf (-a)).toInt = -(iresOf a).toInt ∧ (-a).toInt = -a.toInt) ∧
  (∀ m l : Byte, (sxu m l).toInt ≠ 8192)

/-- 43_simul.md R125: the division is exact for the amounts 0 and −8192 alone, and any other remainder
has the sign of the amount; the printed remainders. -/
def Obligations.DivisionRemainders : Prop :=
  (∀ a : Half, inRange a →
    ((prodOf a).toInt.tmod 40960 = 0 ↔ a.toInt = 0 ∨ a.toInt = -8192) ∧
    (0 < (prodOf a).toInt.tmod 40960 → 0 < a.toInt) ∧
    ((prodOf a).toInt.tmod 40960 < 0 → a.toInt < 0)) ∧
  (prodOf 1#16).toInt.tmod 40960 = 38585 ∧ (prodOf 8191#16).toInt.tmod 40960 = 2375 ∧
  (prodOf (-8191#16)).toInt.tmod 40960 = -2375 ∧ (prodOf 4096#16).toInt.tmod 40960 = 20480 ∧
  (iresOf 4096#16).toInt = 98066

/-- 43_simul.md R126: the divider that adds a bias of 8191 to a negative reduced product and shifts
right by 13, in 32 bits, returns the same quotient for every amount. -/
def Obligations.BiasedShiftDivider : Prop :=
  ∀ a : Half, inRange a →
    (a.signExtend 32 * 196133#32 + (if a.msb then 8191#32 else 0#32)).sshiftRight 13 = iresOf a

/-- 43_simul.md R127: with a product wrapped to 32 bits the quotient is right exactly below 2190. -/
def Obligations.WrappedProductIsWrong : Prop :=
  (∀ a : Half, inRange a →
    (((prodOf a).setWidth 32).toInt.tdiv 40960 = (iresOf a).toInt ↔ a.toInt.natAbs < 2190)) ∧
  ((prodOf 8191#16).setWidth 32).toInt = -557307577 ∧
  ((prodOf 8191#16).setWidth 32).toInt.tdiv 40960 = -13606 ∧
  ((prodOf 2190#16).setWidth 32).toInt = -2147310946 ∧
  ((prodOf 2190#16).setWidth 32).toInt.tdiv 40960 = -52424 ∧
  (iresOf 2190#16).toInt = 52433 ∧ (iresOf 2189#16).toInt = 52409

/-- 43_simul.md R124: the integer result is not ten thousand times the float one, truncated: at 8054 in
binary32 and at −8192 in binary64 that shortcut is off by one. -/
def Obligations.ScaledFloatIsNotIntegerResult : Prop :=
  facc3 .binary32 8054#16 = 0x419A4361#32 ∧
  192828 < 10000 * val .binary32 (facc3 .binary32 8054#16) ∧
  10000 * val .binary32 (facc3 .binary32 8054#16) < 192829 ∧
  (iresOf 8054#16).toInt = 192829 ∧
  -196133 < 10000 * val .binary64 (facc3 .binary64 (-8192#16)) ∧
  10000 * val .binary64 (facc3 .binary64 (-8192#16)) < -196132 ∧
  (iresOf (-8192#16)).toInt = -196133

/-! ### RAW2MMS2 -/

/-- 43_simul.md R118: `RAW2MMS2` completes for every operand in every state, with the registers the
pseudocode gives and every other register as it was; the same command again, its `msb[7:6]` cleared,
leaves the same bits; its corner cases and its worked example. -/
def Obligations.Raw2mms2Completes : Prop :=
  (∀ (m l : Byte) (s : State), ∃ t, exec (.raw2mms2 m l) s = .next t ∧ t.toRegs = { s.toRegs with
    amt := sxu m l
    prod := (sxu m l).signExtend 64 * 980665#64
    ires := (BitVec.ofInt 64
      (((sxu m l).signExtend 64 * 980665#64).toInt.tdiv 40960)).extractLsb' 0 32
    iv := 1#1 }) ∧
  (∀ (m l : Byte) (s t : State), exec (.raw2mms2 m l) s = .next t →
    ∃ u, exec (.raw2mms2 (m &&& 0x3F#8) l) t = .next u ∧ u.ires = t.ires) ∧
  (∀ m l : Byte, encode (.raw2mms2 m l) = 1#1 ++ m ++ l) ∧
  (iresOf 0#16).toInt = 0 ∧ (iresOf 1#16).toInt = 23 ∧ (iresOf (-1#16)).toInt = -23 ∧
  (iresOf (-8192#16)).toInt = -196133 ∧ (iresOf 8191#16).toInt = 196109 ∧
  decode 0x11FFF#17 = .raw2mms2 0x1F#8 0xFF#8 ∧ (sxu 0x1F#8 0xFF#8).toInt = 8191 ∧
  prodOf 8191#16 = 0x00000001DEC82947#64 ∧ iresOf 8191#16 = 0x0002FE0D#32

/-! ### The machine -/

/-- 10_state.md R36: the frame of the two commands. Each answers a next state; `RAW2MS2` leaves `PROD`,
`IRES` and `IV`, `RAW2MMS2` leaves `FACC` and `FV`, and each writes the registers the rule names. CONV14
has no memory, flag or pc that a frame could name. -/
def Obligations.CommandFrames : Prop :=
  ∀ (m l : Byte) (s : State),
    (∃ t, exec (.raw2ms2 m l) s = .next t ∧ t.prod = s.prod ∧ t.ires = s.ires ∧ t.iv = s.iv ∧
      t.amt = sxu m l ∧ t.facc = facc3 Config.fmt (sxu m l) ∧ t.fv = 1#1) ∧
    (∃ t, exec (.raw2mms2 m l) s = .next t ∧ t.facc = s.facc ∧ t.fv = s.fv ∧
      t.amt = sxu m l ∧ t.prod = prodOf (sxu m l) ∧ t.ires = iresOf (sxu m l) ∧ t.iv = 1#1)

/-- The model's own fields (log entries 3 and 5): a command takes nothing from the host's list, delivers
nothing to the host and records no fault; the host reads a result by an action of its own
(70_reset_and_hazards.md R155). -/
def Obligations.CommandsKeepHostSide : Prop :=
  ∀ (i : Instr) (s : State),
    ∃ t, exec i s = .next t ∧ t.pending = s.pending ∧ t.readings = s.readings ∧ t.faulted = s.faulted

/-- 00_scope.md R7, 10_state.md R36, 42_fmac.md R98, 43_simul.md R118: the effect of each command on the
machine is the same for both values of the parameter `FMT`, and this hardware's commands and steps are
those of the machine at its format, `Config.fmt` (log entry 1). -/
def Obligations.EffectsForBothFormats : Prop :=
  (∀ (f : Format) (m l : Byte) (s : StateAt f),
    commandAt (.raw2ms2 m l) s = { s with
      amt := sxu m l
      facc := fmul f (fmul f (i2f f (sxu m l)) (kSens f)) (kG f)
      fv := 1#1 } ∧
    commandAt (.raw2mms2 m l) s = { s with
      amt := sxu m l, prod := prodOf (sxu m l), ires := iresOf (sxu m l), iv := 1#1 }) ∧
  (∀ (i : Instr) (s : State), exec i s = .next { toStateAt := commandAt i s.toStateAt }) ∧
  (∀ s : State, step s = .next { toStateAt := stepAt s.toStateAt })

/-- 10_state.md R35: after reset the valid bits are 0, so `STATUS = 0b00`, and the four data registers hold
no value, at either format. "Holds no value" is said through the model's views (log entry 2); nothing is
said of the bits the registers carry meanwhile. -/
def Obligations.ResetValues : Prop :=
  (State.reset.fv = 0#1 ∧ State.reset.iv = 0#1 ∧ State.reset.status = 0b00#2 ∧
    State.reset.heldAmt = none ∧ State.reset.heldFacc = none ∧ State.reset.heldProd = none ∧
    State.reset.heldIres = none) ∧
  ∀ f : Format, (StateAt.reset f).fv = 0#1 ∧ (StateAt.reset f).iv = 0#1 ∧
    (StateAt.reset f).heldAmt = none ∧ (StateAt.reset f).heldFacc = none ∧
    (StateAt.reset f).heldProd = none ∧ (StateAt.reset f).heldIres = none

/-- 70_reset_and_hazards.md R150, 60_exceptions.md R134: a reset step puts the registers in their reset
state whatever they were and whatever command it cuts short. That the host goes on with its list and
keeps what it has read is the model's choice (log entry 3), and so is that a recorded fault outlasts the
reset (log entry 5). Of the registers the rules fix `FV = 0`, `IV = 0` and that the four data registers
hold no value; which bits `AMT`, `FACC`, `PROD` and `IRES` carry then, those of `State.reset`, is the
model's choice (log entry 2). -/
def Obligations.ResetBeatsCommand : Prop :=
  ∀ (s : State) (cut : Option CommandWord) (rest : List HostAction),
    s.pending = .reset cut :: rest →
    step s = .next { s with toRegs := State.reset.toRegs, pending := rest }

/-- 20_memory.md R47, 30_encoding.md R65: a step at a presented command word is the decoded command
executed whole on the state with that word taken off the list, which is the model's (log entry 3); the
machine with an instruction placed as its next one (log entry 6) runs exactly it; and with nothing
presented the unit holds its registers (60_exceptions.md R143, 70_reset_and_hazards.md R151). -/
def Obligations.StepRunsDecodedCommand : Prop :=
  (∀ (s : State) (w : CommandWord) (rest : List HostAction), s.pending = .present w :: rest →
    step s = exec (decode w) { s with pending := rest }) ∧
  (∀ (s : State) (nbits w : Nat) (i : Instr), decodeTableWord nbits w = some i →
    step (s.withFetchWord nbits w) = exec i s) ∧
  (∀ s : State, s.pending = [] → step s = .next s)

/-- 10_state.md R27, R37, 70_reset_and_hazards.md R155: each allowed read returns the register and
changes nothing but the host's own record, which is the model's (log entry 3). -/
def Obligations.HostReadsReturnAndKeep : Prop :=
  (∀ (s : State) (rest : List HostAction), s.pending = .readStatus :: rest →
    step s = .next { s with pending := rest, readings := .status (s.iv ++ s.fv) :: s.readings }) ∧
  (∀ (s : State) (rest : List HostAction), s.pending = .readFacc :: rest → s.fv = 1#1 →
    step s = .next { s with pending := rest, readings := .facc (some s.facc) :: s.readings }) ∧
  (∀ (s : State) (rest : List HostAction), s.pending = .readIres :: rest → s.iv = 1#1 →
    step s = .next { s with pending := rest, readings := .ires (some s.ires) :: s.readings })

/-- 70_reset_and_hazards.md R153, 10_state.md R37, 60_exceptions.md R144: a read of a result whose valid
bit is 0 reads `⊥`, never a number, raises nothing and changes no register; it is a fault of the run, kept
for the rest of the run. The host's list and record are the model's (log entry 3); that the fault is a
field, and that a reset later in the list does not clear it, is the model's choice (log entry 5). -/
def Obligations.EarlyReadFaults : Prop :=
  (∀ (s : State) (rest : List HostAction), s.pending = .readFacc :: rest → s.fv = 0#1 →
    step s = .next
      { s with pending := rest, readings := .facc none :: s.readings, faulted := true } ∧
    ∀ k, ∃ t, run (k + 1) s = .next t ∧ t.faulted = true) ∧
  (∀ (s : State) (rest : List HostAction), s.pending = .readIres :: rest → s.iv = 0#1 →
    step s = .next
      { s with pending := rest, readings := .ires none :: s.readings, faulted := true } ∧
    ∀ k, ∃ t, run (k + 1) s = .next t ∧ t.faulted = true)

/-- 60_exceptions.md R130, R131, 70_reset_and_hazards.md R153: every step of every state answers a next
state, and a run is faulted after it exactly when it was before or the step was an early read. That a
reset leaves the record of the fault is the model's choice (log entry 5). -/
def Obligations.OnlyEarlyReadsFault : Prop :=
  ∀ s : State, ∃ t, step s = .next t ∧
    (t.faulted = true ↔ s.faulted = true ∨
      (∃ rest, s.pending = .readFacc :: rest ∧ s.fv = 0#1) ∨
      (∃ rest, s.pending = .readIres :: rest ∧ s.iv = 0#1))

/-- 60_exceptions.md R130: every command in every state answers a next state. -/
def Obligations.CommandsAlwaysComplete : Prop :=
  ∀ (i : Instr) (s : State), ∃ t, exec i s = .next t

/-- 10_state.md R34: what a command leaves in the registers it writes does not depend on the state
before it; the same command twice leaves the same registers as once, and a command of the other kind in
between changes nothing in the result. -/
def Obligations.CommandsForgetHistory : Prop :=
  ∀ (f : Format) (m l m' l' : Byte) (r r' : Regs f),
    ((raw2ms2Regs f m l r).amt = (raw2ms2Regs f m l r').amt ∧
      (raw2ms2Regs f m l r).facc = (raw2ms2Regs f m l r').facc ∧
      (raw2ms2Regs f m l r).fv = (raw2ms2Regs f m l r').fv) ∧
    ((raw2mms2Regs m l r).amt = (raw2mms2Regs m l r').amt ∧
      (raw2mms2Regs m l r).prod = (raw2mms2Regs m l r').prod ∧
      (raw2mms2Regs m l r).ires = (raw2mms2Regs m l r').ires ∧
      (raw2mms2Regs m l r).iv = (raw2mms2Regs m l r').iv) ∧
    raw2ms2Regs f m l (raw2ms2Regs f m l r) = raw2ms2Regs f m l r ∧
    raw2mms2Regs m l (raw2mms2Regs m l r) = raw2mms2Regs m l r ∧
    (raw2mms2Regs m' l' (raw2ms2Regs f m l r)).facc = (raw2ms2Regs f m l r).facc ∧
    (raw2ms2Regs f m' l' (raw2mms2Regs m l r)).prod = (raw2mms2Regs m l r).prod ∧
    (raw2ms2Regs f m' l' (raw2mms2Regs m l r)).ires = (raw2mms2Regs m l r).ires

/-- 70_reset_and_hazards.md R157, R160, 40_sxu.md R75: both commands on one sample give the same
registers in either order, and work from the same amount. -/
def Obligations.PathsCommute : Prop :=
  ∀ (f : Format) (m l : Byte) (r : Regs f),
    raw2mms2Regs m l (raw2ms2Regs f m l r) = raw2ms2Regs f m l (raw2mms2Regs m l r) ∧
    (raw2ms2Regs f m l r).amt = (raw2mms2Regs m l r).amt

/-- 10_state.md R33, R34, 00_scope.md R15: what `AMT` and `PROD` hold, and the bits of a result register
whose valid bit is 0, reach the host by no path: two states that agree on the rest still do after a step,
and every run from them delivers the same readings. So no bit that the model puts into a register at
reset (log entry 2) decides anything the host sees. -/
def Obligations.HiddenBitsReachNothing : Prop :=
  ∀ (f : Format) (s t : StateAt f), SameToHost s t →
    SameToHost (stepAt s) (stepAt t) ∧ ∀ k : Nat, (runAt k s).readings = (runAt k t).readings

/-- 10_state.md R25, R26: nothing but reset ever clears a valid bit, and nothing but a command of its
kind ever sets one. -/
def Obligations.ValidBitsClearedOnlyByReset : Prop :=
  ∀ s t : State, step s = .next t →
    ((s.fv = 1#1 ∧ t.fv = 0#1) ∨ (s.iv = 1#1 ∧ t.iv = 0#1) →
      ∃ cut rest, s.pending = .reset cut :: rest) ∧
    (s.fv = 0#1 ∧ t.fv = 1#1 →
      ∃ w rest m l, s.pending = .present w :: rest ∧ decode w = .raw2ms2 m l) ∧
    (s.iv = 0#1 ∧ t.iv = 1#1 →
      ∃ w rest m l, s.pending = .present w :: rest ∧ decode w = .raw2mms2 m l)

/-- 70_reset_and_hazards.md R157: a result stays in its register until a command of the same kind
overwrites it or reset takes it away, after which the register holds no value (log entry 2). -/
def Obligations.ResultsChangeOnlyByOwnKind : Prop :=
  ∀ s t : State, step s = .next t →
    (t.facc ≠ s.facc →
      (∃ w rest m l, s.pending = .present w :: rest ∧ decode w = .raw2ms2 m l ∧
        t.facc = facc3 Config.fmt (sxu m l) ∧ t.fv = 1#1) ∨
      (∃ cut rest, s.pending = .reset cut :: rest ∧ t.heldFacc = none)) ∧
    (t.ires ≠ s.ires ∨ t.prod ≠ s.prod →
      (∃ w rest m l, s.pending = .present w :: rest ∧ decode w = .raw2mms2 m l ∧
        t.prod = prodOf (sxu m l) ∧ t.ires = iresOf (sxu m l) ∧ t.iv = 1#1) ∨
      (∃ cut rest, s.pending = .reset cut :: rest ∧ t.heldIres = none ∧ t.heldProd = none))

/-- The invariant holds right after reset, at either format: its half about the registers because the
valid bits are 0 (10_state.md R35), its half about what the host was given because a run begins with the
reset (70_reset_and_hazards.md R159) and State.reset lists no reading, which is the model's choice (log
entry 3). -/
def Obligations.ResetMeetsInv : Prop :=
  State.reset.Inv ∧ ∀ f : Format, (StateAt.reset f).Inv

/-- 10_state.md R21 to R26, 70_reset_and_hazards.md R153: every step keeps the invariant, from every state
that meets it and whatever the host does, on this hardware's machine and at either format. It is about
the registers where a valid bit says they hold a value, and about what the host was given: a number it
read is a result of some command, and where it read `⊥` the run is faulted (log entries 2, 3 and 5). -/
def Obligations.StepKeepsInv : Prop :=
  (∀ s t : State, s.Inv → step s = .next t → t.Inv) ∧
  ∀ (f : Format) (s : StateAt f), s.Inv → (stepAt s).Inv

/-- 00_scope.md R18, 20_memory.md R47, 70_reset_and_hazards.md R159: presenting a list of commands one
after another, from any state, leaves in each result register the function of the last command of its
kind, and what was there before where there is none; nothing faults, and what the host does after the
list is still to come; at this hardware's format and at either. The host's list is the model's (log
entry 3), and so is the record of the fault (log entry 5). -/
def Obligations.CommandListFold : Prop :=
  (∀ (s : State) (ws : List CommandWord) (rest : List HostAction),
    s.pending = ws.map HostAction.present ++ rest →
    run ws.length s = .next
      { s with toRegs := afterCommands (ws.map decode) s.toRegs, pending := rest }) ∧
  ∀ (f : Format) (s : StateAt f) (ws : List CommandWord) (rest : List HostAction),
    s.pending = ws.map HostAction.present ++ rest →
    runAt ws.length s = { s with toRegs := afterCommands (ws.map decode) s.toRegs, pending := rest }

/-- 70_reset_and_hazards.md R153, R155, R159: from any state without a recorded fault, no run of any
length is faulted exactly when the host reads each result only with its valid bit 1; at this hardware's
format and at either. The host's list is the model's (log entry 3), and so is the record of the fault,
which a reset does not clear (log entry 5). -/
def Obligations.DutifulHostNeverFaults : Prop :=
  (∀ s : State, s.faulted = false →
    (hostDuty (decide (s.fv = 1#1)) (decide (s.iv = 1#1)) s.pending = true ↔
      ∀ k : Nat, ∃ t : State, run k s = .next t ∧ t.faulted = false)) ∧
  ∀ (f : Format) (s : StateAt f), s.faulted = false →
    (hostDuty (decide (s.fv = 1#1)) (decide (s.iv = 1#1)) s.pending = true ↔
      ∀ k : Nat, (runAt k s).faulted = false)
end

