-- ==== Sys2Proof/Laws/Decode.lean ====
section
/-!
SUPPORT. Joined words as numbers: the 16-bit `raw` of two bytes and the 17-bit word of an opcode and two
bytes. Claims about bits of a command word reduce to arithmetic through these.
-/

namespace Sys2Proof.Machine

/-- `raw = msb · 256 + lsb`: "the OR is the same as addition" (40_sxu.md R70). -/
theorem rawWord_toNat (m l : Byte) : (rawWord m l).toNat = m.toNat * 256 + l.toNat := by
  have h : (rawWord m l).toNat = m.toNat <<< 8 ||| l.toNat := BitVec.toNat_append m l
  rw [h, ← Nat.shiftLeft_add_eq_or_of_lt l.isLt, Nat.shiftLeft_eq]

/-- An opcode bit above two bytes, as a number. -/
theorem joined_toNat (o : BitVec 1) (m l : Byte) :
    (o ++ m ++ l : BitVec 17).toNat = o.toNat * 65536 + m.toNat * 256 + l.toNat := by
  have h : (o ++ m ++ l : BitVec 17).toNat = (o.toNat <<< 8 ||| m.toNat) <<< 8 ||| l.toNat :=
    (BitVec.toNat_append (o ++ m) l).trans (by rw [BitVec.toNat_append])
  rw [h, ← Nat.shiftLeft_add_eq_or_of_lt m.isLt, ← Nat.shiftLeft_add_eq_or_of_lt l.isLt,
    Nat.shiftLeft_eq, Nat.shiftLeft_eq]
  omega

/-- The low 16 bits of an opcode bit above two bytes are the two bytes joined. -/
theorem joined_low (o : BitVec 1) (m l : Byte) :
    (o ++ m ++ l : BitVec 17).extractLsb' 0 16 = rawWord m l := by
  apply BitVec.eq_of_toNat_eq
  have hm := m.isLt
  have hl := l.isLt
  rw [BitVec.extractLsb'_toNat, joined_toNat, rawWord_toNat]
  omega

/-- The bit above two bytes is the opcode bit. -/
theorem joined_top (o : BitVec 1) (m l : Byte) :
    (o ++ m ++ l : BitVec 17).extractLsb' 16 1 = o := by
  apply BitVec.eq_of_toNat_eq
  have hm := m.isLt
  have hl := l.isLt
  have ho := o.isLt
  rw [BitVec.extractLsb'_toNat, joined_toNat, Nat.shiftRight_eq_div_pow]
  omega

end Sys2Proof.Machine
end

