-- ==== Sys2Proof/Laws/Operands.lean ====
section
/-!
SUPPORT. What the SXU computes, for every 16-bit `raw`: the shift form, the explicit form and the form
with no test are `signed_14(raw[13:0])` (40_sxu.md R76, R78, R83).
-/

namespace Sys2Proof.Machine

/-- The field is `raw` without its two top bits (40_sxu.md R77). -/
theorem field14_toNat (raw : Half) : (field14 raw).toNat = raw.toNat % 16384 := by
  simp [field14, BitVec.extractLsb'_toNat]

/-- The sign bit of the field says whether the field is at least 8192 (40_sxu.md R78). -/
theorem field14_top (raw : Half) : (field14 raw).getLsbD 13 = decide (8192 ≤ raw.toNat % 16384) := by
  have h : (field14 raw).msb = (field14 raw).getLsbD 13 := BitVec.msb_eq_getLsbD_last _
  rw [← h, BitVec.msb_eq_decide, field14_toNat]

/-- `signed_14(raw[13:0])` as arithmetic (40_sxu.md R76). -/
theorem signed14_eq (raw : Half) :
    signed14 raw = (raw.toNat % 16384 : Nat) - (if 8192 ≤ raw.toNat % 16384 then 16384 else 0 : Int) := by
  rw [signed14, BitVec.toInt_eq_toNat_cond, field14_toNat]
  split <;> split <;> omega

/-- The explicit form is `signed_14(raw[13:0])`. -/
theorem explicitForm_eq_signed14 (raw : Half) : explicitForm raw = signed14 raw := by
  rw [explicitForm, signed14_eq, field14_top, field14_toNat]
  by_cases h : 8192 ≤ raw.toNat % 16384 <;> simp [h]

/-- Flipping bit 13 of a number of fourteen bits adds or takes away 8192. -/
theorem xor_8192 (n : Nat) (h : n < 16384) :
    n ^^^ 8192 = if 8192 ≤ n then n - 8192 else n + 8192 := by
  have low : (n ^^^ 8192) % 2 ^ 13 = n % 2 ^ 13 := by
    rw [Nat.xor_mod_two_pow, show 8192 % 2 ^ 13 = 0 from rfl, Nat.xor_zero]
  have high : (n ^^^ 8192) / 2 ^ 13 = n / 2 ^ 13 ^^^ 1 := Nat.xor_div_two_pow
  have bit : n / 2 ^ 13 = 0 ∨ n / 2 ^ 13 = 1 := by omega
  rcases bit with e | e
  · rw [e, show 0 ^^^ 1 = 1 from rfl] at high
    split <;> omega
  · rw [e, show 1 ^^^ 1 = 0 from rfl] at high
    split <;> omega

/-- The form with no test is `signed_14(raw[13:0])`. -/
theorem xorForm_eq_signed14 (raw : Half) : xorForm raw = signed14 raw := by
  have mask : raw.toNat &&& 16383 = raw.toNat % 16384 := Nat.and_two_pow_sub_one_eq_mod raw.toNat 14
  have h : ((raw &&& 0x3FFF#16) ^^^ 0x2000#16).toNat = raw.toNat % 16384 ^^^ 8192 := by
    rw [BitVec.toNat_xor, BitVec.toNat_and, ← mask]
    rfl
  rw [xorForm, h, xor_8192 _ (Nat.mod_lt _ (by decide)), signed14_eq]
  split <;> omega

/-- The shift form is `signed_14(raw[13:0])`: the proof 40_sxu.md R76 gives from the steps R71 to R73. -/
theorem shiftForm_eq_signed14 (raw : Half) : (amount (shifted raw)).toInt = signed14 raw := by
  have ht : (shifted raw).toNat = raw.toNat * 4 % 65536 := by
    simp [shifted, BitVec.toNat_shiftLeft, Nat.shiftLeft_eq]
  rw [amount, BitVec.toInt_sshiftRight, Int.shiftRight_eq_div_pow, BitVec.toInt_eq_toNat_cond, ht,
    signed14_eq]
  split <;> split <;> omega

/-- "A model should state that equality as a theorem over all 65536 inputs" (40_sxu.md R83). -/
theorem formsAgree_every_raw (raw : Half) : formsAgree raw :=
  ⟨shiftForm_eq_signed14 raw, explicitForm_eq_signed14 raw, xorForm_eq_signed14 raw⟩

end Sys2Proof.Machine
end

