-- ==== Sys2Proof/Laws/State.lean ====
section
/-!
SUPPORT. What each named update does to each field, one lemma per field per update, all true by
definition, and what the views of the registers answer. Later proofs cite these and unfold no record
update.
-/

namespace Sys2Proof.Machine

section Regs
variable {f : Format} (r : Regs f)

@[simp] theorem Regs.setAmt_amt (v : BitVec 16) : (r.setAmt v).amt = v := rfl
@[simp] theorem Regs.setAmt_facc (v : BitVec 16) : (r.setAmt v).facc = r.facc := rfl
@[simp] theorem Regs.setAmt_prod (v : BitVec 16) : (r.setAmt v).prod = r.prod := rfl
@[simp] theorem Regs.setAmt_ires (v : BitVec 16) : (r.setAmt v).ires = r.ires := rfl
@[simp] theorem Regs.setAmt_fv (v : BitVec 16) : (r.setAmt v).fv = r.fv := rfl
@[simp] theorem Regs.setAmt_iv (v : BitVec 16) : (r.setAmt v).iv = r.iv := rfl

@[simp] theorem Regs.setFacc_amt (v : BitVec f.flen) : (r.setFacc v).amt = r.amt := rfl
@[simp] theorem Regs.setFacc_facc (v : BitVec f.flen) : (r.setFacc v).facc = v := rfl
@[simp] theorem Regs.setFacc_prod (v : BitVec f.flen) : (r.setFacc v).prod = r.prod := rfl
@[simp] theorem Regs.setFacc_ires (v : BitVec f.flen) : (r.setFacc v).ires = r.ires := rfl
@[simp] theorem Regs.setFacc_fv (v : BitVec f.flen) : (r.setFacc v).fv = r.fv := rfl
@[simp] theorem Regs.setFacc_iv (v : BitVec f.flen) : (r.setFacc v).iv = r.iv := rfl

@[simp] theorem Regs.setProd_amt (v : BitVec 64) : (r.setProd v).amt = r.amt := rfl
@[simp] theorem Regs.setProd_facc (v : BitVec 64) : (r.setProd v).facc = r.facc := rfl
@[simp] theorem Regs.setProd_prod (v : BitVec 64) : (r.setProd v).prod = v := rfl
@[simp] theorem Regs.setProd_ires (v : BitVec 64) : (r.setProd v).ires = r.ires := rfl
@[simp] theorem Regs.setProd_fv (v : BitVec 64) : (r.setProd v).fv = r.fv := rfl
@[simp] theorem Regs.setProd_iv (v : BitVec 64) : (r.setProd v).iv = r.iv := rfl

@[simp] theorem Regs.setIres_amt (v : BitVec 32) : (r.setIres v).amt = r.amt := rfl
@[simp] theorem Regs.setIres_facc (v : BitVec 32) : (r.setIres v).facc = r.facc := rfl
@[simp] theorem Regs.setIres_prod (v : BitVec 32) : (r.setIres v).prod = r.prod := rfl
@[simp] theorem Regs.setIres_ires (v : BitVec 32) : (r.setIres v).ires = v := rfl
@[simp] theorem Regs.setIres_fv (v : BitVec 32) : (r.setIres v).fv = r.fv := rfl
@[simp] theorem Regs.setIres_iv (v : BitVec 32) : (r.setIres v).iv = r.iv := rfl

@[simp] theorem Regs.setFv_amt : (r.setFv).amt = r.amt := rfl
@[simp] theorem Regs.setFv_facc : (r.setFv).facc = r.facc := rfl
@[simp] theorem Regs.setFv_prod : (r.setFv).prod = r.prod := rfl
@[simp] theorem Regs.setFv_ires : (r.setFv).ires = r.ires := rfl
@[simp] theorem Regs.setFv_fv : (r.setFv).fv = 1#1 := rfl
@[simp] theorem Regs.setFv_iv : (r.setFv).iv = r.iv := rfl

@[simp] theorem Regs.setIv_amt : (r.setIv).amt = r.amt := rfl
@[simp] theorem Regs.setIv_facc : (r.setIv).facc = r.facc := rfl
@[simp] theorem Regs.setIv_prod : (r.setIv).prod = r.prod := rfl
@[simp] theorem Regs.setIv_ires : (r.setIv).ires = r.ires := rfl
@[simp] theorem Regs.setIv_fv : (r.setIv).fv = r.fv := rfl
@[simp] theorem Regs.setIv_iv : (r.setIv).iv = 1#1 := rfl

end Regs

section Reset
variable (f : Format)

@[simp] theorem Regs.reset_amt : (Regs.reset f).amt = 0#16 := rfl
@[simp] theorem Regs.reset_facc : (Regs.reset f).facc = 0#f.flen := rfl
@[simp] theorem Regs.reset_prod : (Regs.reset f).prod = 0#64 := rfl
@[simp] theorem Regs.reset_ires : (Regs.reset f).ires = 0#32 := rfl
@[simp] theorem Regs.reset_fv : (Regs.reset f).fv = 0#1 := rfl
@[simp] theorem Regs.reset_iv : (Regs.reset f).iv = 0#1 := rfl

@[simp] theorem StateAt.reset_toRegs : (StateAt.reset f).toRegs = Regs.reset f := rfl
@[simp] theorem StateAt.reset_pending : (StateAt.reset f).pending = [] := rfl
@[simp] theorem StateAt.reset_readings : (StateAt.reset f).readings = [] := rfl
@[simp] theorem StateAt.reset_faulted : (StateAt.reset f).faulted = false := rfl
@[simp] theorem State.reset_toStateAt : State.reset.toStateAt = StateAt.reset Config.fmt := rfl

end Reset

section Held
variable {f : Format} (r : Regs f)

theorem Regs.heldFacc_valid (h : r.fv = 1#1) : r.heldFacc = some r.facc := if_pos h
theorem Regs.heldFacc_invalid (h : r.fv = 0#1) : r.heldFacc = none := by simp [Regs.heldFacc, h]
theorem Regs.heldIres_valid (h : r.iv = 1#1) : r.heldIres = some r.ires := if_pos h
theorem Regs.heldIres_invalid (h : r.iv = 0#1) : r.heldIres = none := by simp [Regs.heldIres, h]
theorem Regs.heldProd_valid (h : r.iv = 1#1) : r.heldProd = some r.prod := if_pos h
theorem Regs.heldProd_invalid (h : r.iv = 0#1) : r.heldProd = none := by simp [Regs.heldProd, h]
theorem Regs.heldAmt_valid (h : r.fv = 1#1 ∨ r.iv = 1#1) : r.heldAmt = some r.amt := if_pos h
theorem Regs.heldAmt_invalid (hf : r.fv = 0#1) (hi : r.iv = 0#1) : r.heldAmt = none := by
  simp [Regs.heldAmt, hf, hi]

/-- A read of `FACC` is allowed exactly when `FV = 1`. -/
theorem Regs.heldFacc_isSome : r.heldFacc.isSome = decide (r.fv = 1#1) := by
  by_cases h : r.fv = 1#1 <;> simp [Regs.heldFacc, h]

/-- A read of `IRES` is allowed exactly when `IV = 1`. -/
theorem Regs.heldIres_isSome : r.heldIres.isSome = decide (r.iv = 1#1) := by
  by_cases h : r.iv = 1#1 <;> simp [Regs.heldIres, h]

/-- `FACC` holds no value exactly when `FV = 0`. -/
theorem Regs.heldFacc_eq_none : r.heldFacc = none ↔ r.fv = 0#1 := by
  have h : ∀ v : BitVec 1, v ≠ 1#1 ↔ v = 0#1 := by decide
  rw [← h, Regs.heldFacc]
  simp

/-- `IRES` holds no value exactly when `IV = 0`. -/
theorem Regs.heldIres_eq_none : r.heldIres = none ↔ r.iv = 0#1 := by
  have h : ∀ v : BitVec 1, v ≠ 1#1 ↔ v = 0#1 := by decide
  rw [← h, Regs.heldIres]
  simp

/-- After reset no register holds a value (10_state.md R35). -/
@[simp] theorem Regs.reset_heldFacc : (Regs.reset f).heldFacc = none := rfl
@[simp] theorem Regs.reset_heldIres : (Regs.reset f).heldIres = none := rfl
@[simp] theorem Regs.reset_heldProd : (Regs.reset f).heldProd = none := rfl
@[simp] theorem Regs.reset_heldAmt : (Regs.reset f).heldAmt = none := rfl

end Held

section State
variable {f : Format} (s : StateAt f)

@[simp] theorem StateAt.setRegs_toRegs (r : Regs f) : (s.setRegs r).toRegs = r := rfl
@[simp] theorem StateAt.setRegs_pending (r : Regs f) : (s.setRegs r).pending = s.pending := rfl
@[simp] theorem StateAt.setRegs_readings (r : Regs f) : (s.setRegs r).readings = s.readings := rfl
@[simp] theorem StateAt.setRegs_faulted (r : Regs f) : (s.setRegs r).faulted = s.faulted := rfl

@[simp] theorem StateAt.deliver_toRegs (v : Reading f) : (s.deliver v).toRegs = s.toRegs := rfl
@[simp] theorem StateAt.deliver_pending (v : Reading f) : (s.deliver v).pending = s.pending := rfl
@[simp] theorem StateAt.deliver_readings (v : Reading f) : (s.deliver v).readings = v :: s.readings := rfl
@[simp] theorem StateAt.deliver_faulted (v : Reading f) : (s.deliver v).faulted = s.faulted := rfl

@[simp] theorem StateAt.judge_toRegs (b : Bool) : (s.judge b).toRegs = s.toRegs := rfl
@[simp] theorem StateAt.judge_pending (b : Bool) : (s.judge b).pending = s.pending := rfl
@[simp] theorem StateAt.judge_readings (b : Bool) : (s.judge b).readings = s.readings := rfl
@[simp] theorem StateAt.judge_faulted (b : Bool) : (s.judge b).faulted = (s.faulted || !b) := rfl

@[simp] theorem StateAt.assertReset_toRegs (c : Option CommandWord) :
    (s.assertReset c).toRegs = Regs.reset f := rfl
@[simp] theorem StateAt.assertReset_pending (c : Option CommandWord) :
    (s.assertReset c).pending = s.pending := rfl
@[simp] theorem StateAt.assertReset_readings (c : Option CommandWord) :
    (s.assertReset c).readings = s.readings := rfl
@[simp] theorem StateAt.assertReset_faulted (c : Option CommandWord) :
    (s.assertReset c).faulted = s.faulted := rfl

end State

section Present
variable (s : State) (w : CommandWord)

@[simp] theorem presentNext_toRegs : (presentNext s w).toRegs = s.toRegs := rfl
@[simp] theorem presentNext_pending : (presentNext s w).pending = .present w :: s.pending := rfl
@[simp] theorem presentNext_readings : (presentNext s w).readings = s.readings := rfl
@[simp] theorem presentNext_faulted : (presentNext s w).faulted = s.faulted := rfl

end Present

end Sys2Proof.Machine
end

