-- ==== Sys2Proof/Laws/Ops.lean ====
section
/-!
SUPPORT. What each shared operation can do, said once: the two register effects field by field, a host
read, one action of the host, one step. The provers cite these instead of unfolding the operation.
-/

namespace Sys2Proof.Machine

section Effects
variable (f : Format) (m l : Byte) (r : Regs f)

@[simp] theorem raw2ms2Regs_amt : (raw2ms2Regs f m l r).amt = sxu m l := rfl
@[simp] theorem raw2ms2Regs_facc : (raw2ms2Regs f m l r).facc = facc3 f (sxu m l) := rfl
@[simp] theorem raw2ms2Regs_prod : (raw2ms2Regs f m l r).prod = r.prod := rfl
@[simp] theorem raw2ms2Regs_ires : (raw2ms2Regs f m l r).ires = r.ires := rfl
@[simp] theorem raw2ms2Regs_fv : (raw2ms2Regs f m l r).fv = 1#1 := rfl
@[simp] theorem raw2ms2Regs_iv : (raw2ms2Regs f m l r).iv = r.iv := rfl

@[simp] theorem raw2mms2Regs_amt : (raw2mms2Regs m l r).amt = sxu m l := rfl
@[simp] theorem raw2mms2Regs_facc : (raw2mms2Regs m l r).facc = r.facc := rfl
@[simp] theorem raw2mms2Regs_prod : (raw2mms2Regs m l r).prod = prodOf (sxu m l) := rfl
@[simp] theorem raw2mms2Regs_ires : (raw2mms2Regs m l r).ires = iresOf (sxu m l) := rfl
@[simp] theorem raw2mms2Regs_fv : (raw2mms2Regs m l r).fv = r.fv := rfl
@[simp] theorem raw2mms2Regs_iv : (raw2mms2Regs m l r).iv = 1#1 := rfl

/-- `RAW2MS2` leaves the value `IRES` holds. -/
@[simp] theorem raw2ms2Regs_heldIres : (raw2ms2Regs f m l r).heldIres = r.heldIres := rfl
@[simp] theorem raw2ms2Regs_heldFacc : (raw2ms2Regs f m l r).heldFacc = some (facc3 f (sxu m l)) := rfl

/-- `RAW2MMS2` leaves the value `FACC` holds. -/
@[simp] theorem raw2mms2Regs_heldFacc : (raw2mms2Regs m l r).heldFacc = r.heldFacc := rfl
@[simp] theorem raw2mms2Regs_heldIres : (raw2mms2Regs m l r).heldIres = some (iresOf (sxu m l)) := rfl

end Effects

section Reads
variable {f : Format} (s : StateAt f)

/-- Everything a read of `STATUS` does. -/
theorem readStatusAt_eq :
    readStatusAt s = { s with readings := .status (s.iv ++ s.fv) :: s.readings } := rfl

/-- Everything an allowed read of `FACC` does. -/
theorem readFaccAt_valid (h : s.fv = 1#1) :
    readFaccAt s = { s with readings := .facc (some s.facc) :: s.readings } := by
  simp [readFaccAt, StateAt.judge, StateAt.deliver, Regs.heldFacc_valid _ h]

/-- Everything an early read of `FACC` does. -/
theorem readFaccAt_early (h : s.fv = 0#1) :
    readFaccAt s = { s with readings := .facc none :: s.readings, faulted := true } := by
  simp [readFaccAt, StateAt.judge, StateAt.deliver, Regs.heldFacc_invalid _ h]

/-- Everything an allowed read of `IRES` does. -/
theorem readIresAt_valid (h : s.iv = 1#1) :
    readIresAt s = { s with readings := .ires (some s.ires) :: s.readings } := by
  simp [readIresAt, StateAt.judge, StateAt.deliver, Regs.heldIres_valid _ h]

/-- Everything an early read of `IRES` does. -/
theorem readIresAt_early (h : s.iv = 0#1) :
    readIresAt s = { s with readings := .ires none :: s.readings, faulted := true } := by
  simp [readIresAt, StateAt.judge, StateAt.deliver, Regs.heldIres_invalid _ h]

end Reads

/-- Everything a command can do: it always answers a next state, that of its effect. -/
theorem exec_eq (i : Instr) (s : State) : exec i s = answer (commandAt i s.toStateAt) := by
  cases i <;> rfl

/-- Everything an action of the host can do: it always answers a next state. -/
theorem perform_eq (a : HostAction) (s : State) : perform a s = answer (performAt a s.toStateAt) := by
  cases a with
  | present w => exact exec_eq (decode w) s
  | readStatus => rfl
  | readFacc => rfl
  | readIres => rfl
  | reset c => rfl

/-- Everything a step can do: it always answers a next state (60_exceptions.md R130). -/
theorem step_eq (s : State) : step s = answer (stepAt s.toStateAt) := by
  unfold step stepAt
  cases s.pending with
  | nil => rfl
  | cons a rest => exact perform_eq a _

/-- The state a step answers is the one of `stepAt`. -/
theorem step_next {s t : State} (h : step s = .next t) : t = { toStateAt := stepAt s.toStateAt } :=
  (Host.Outcome.next.inj ((step_eq s).symm.trans h)).symm

section Step
variable {f : Format} {s : StateAt f} {rest : List HostAction}

/-- A step with nothing pending changes nothing. -/
theorem stepAt_idle (h : s.pending = []) : stepAt s = s := by
  unfold stepAt
  rw [h]

/-- A step with an action pending performs it and takes it off the list. -/
theorem stepAt_pending {a : HostAction} (h : s.pending = a :: rest) :
    stepAt s = performAt a { s with pending := rest } := by
  unfold stepAt
  rw [h]

end Step

/-- The six things one step can do: nothing, one of the two commands, a read of `STATUS`, of `FACC` or of
`IRES`, a reset. -/
theorem stepAt_cases {f : Format} (s : StateAt f) :
    (s.pending = [] ∧ stepAt s = s) ∨
    ∃ a rest, s.pending = a :: rest ∧
      ((∃ w m l, a = .present w ∧ decode w = .raw2ms2 m l ∧
          stepAt s = { s with toRegs := raw2ms2Regs f m l s.toRegs, pending := rest }) ∨
        (∃ w m l, a = .present w ∧ decode w = .raw2mms2 m l ∧
          stepAt s = { s with toRegs := raw2mms2Regs m l s.toRegs, pending := rest }) ∨
        (a = .readStatus ∧
          stepAt s = { s with pending := rest, readings := .status s.status :: s.readings }) ∨
        (a = .readFacc ∧
          stepAt s = { s with
            pending := rest
            readings := .facc s.heldFacc :: s.readings
            faulted := s.faulted || !s.heldFacc.isSome }) ∨
        (a = .readIres ∧
          stepAt s = { s with
            pending := rest
            readings := .ires s.heldIres :: s.readings
            faulted := s.faulted || !s.heldIres.isSome }) ∨
        (∃ c, a = .reset c ∧ stepAt s = { s with toRegs := Regs.reset f, pending := rest })) := by
  cases hp : s.pending with
  | nil => exact .inl ⟨rfl, stepAt_idle hp⟩
  | cons a rest =>
    refine .inr ⟨a, rest, rfl, ?_⟩
    rw [stepAt_pending hp]
    cases a with
    | present w =>
      cases hd : decode w with
      | raw2ms2 m l => exact .inl ⟨w, m, l, rfl, hd, by simp only [performAt, hd]; rfl⟩
      | raw2mms2 m l => exact .inr (.inl ⟨w, m, l, rfl, hd, by simp only [performAt, hd]; rfl⟩)
    | readStatus => exact .inr (.inr (.inl ⟨rfl, rfl⟩))
    | readFacc => exact .inr (.inr (.inr (.inl ⟨rfl, rfl⟩)))
    | readIres => exact .inr (.inr (.inr (.inr (.inl ⟨rfl, rfl⟩))))
    | reset c => exact .inr (.inr (.inr (.inr (.inr ⟨c, rfl, rfl⟩))))

end Sys2Proof.Machine
end

