-- ==== Sys2Proof/Laws/PerInstr.lean ====
section
/-!
SUPPORT. A family of statements about every command as syntax, one lemma per constructor of Instr.
-/

namespace Sys2Proof.Laws.CommandBits

/-- The command word of an instruction carries the document's `raw` in its low 16 bits and the opcode
above them (30_encoding.md R55). -/
def Statement (i : Instr) : Prop :=
  (encode i).extractLsb' 0 16 = Machine.rawWord i.msb i.lsb ∧ (encode i).extractLsb' 16 1 = i.op

theorem raw2ms2 (msb lsb : Byte) : Statement (.raw2ms2 msb lsb) :=
  ⟨Machine.joined_low 0#1 msb lsb, Machine.joined_top 0#1 msb lsb⟩

theorem raw2mms2 (msb lsb : Byte) : Statement (.raw2mms2 msb lsb) :=
  ⟨Machine.joined_low 1#1 msb lsb, Machine.joined_top 1#1 msb lsb⟩

end Sys2Proof.Laws.CommandBits
end

