-- ==== Sys2Proof/Laws/Run.lean ====
section
/-!
SUPPORT. Runs: that a run always answers a state, the idle run, the induction over a run, and that `run`
is the host's own run of the machine.
-/

namespace Sys2Proof.Machine

/-- Everything a run can do: it always answers a state, that of the run at a format. -/
theorem run_eq (k : Nat) (s : State) : run k s = .next { toStateAt := runAt k s.toStateAt } := by
  induction k generalizing s with
  | zero => rfl
  | succ k ih =>
    rw [run, step_eq]
    exact ih _

/-- With nothing pending a run of any length stays where it is (60_exceptions.md R143). -/
theorem runAt_idle {f : Format} {s : StateAt f} (h : s.pending = []) (k : Nat) : runAt k s = s := by
  induction k with
  | zero => rfl
  | succ k ih => rw [runAt, stepAt_idle h, ih]

/-- What every step keeps, every run keeps. -/
theorem runAt_keeps {f : Format} {P : StateAt f → Prop} (h : ∀ s, P s → P (stepAt s)) (k : Nat)
    {s : StateAt f} (hs : P s) : P (runAt k s) := by
  induction k generalizing s with
  | zero => exact hs
  | succ k ih => exact ih (h s hs)

/-- What one more step of the host's run is. -/
theorem host_run_succ (M : Host.Core) (k : Nat) (s : M.State) :
    M.run (k + 1) s = match M.step s with
      | .next t => M.run k t
      | .fault r => .fault r
      | .refused r => .refused r := by
  cases h : M.step s <;> simp only [Host.Core.run, h]

/-- `run` is the run of the machine behind the host's interface. -/
theorem core_run_eq (k : Nat) (s : core.State) : core.run k s = run k s := by
  induction k generalizing s with
  | zero => rfl
  | succ k ih =>
    refine (host_run_succ core k s).trans ?_
    show _ = match core.step s with
      | .next t => run k t
      | .fault r => .fault r
      | .refused r => .refused r
    cases core.step s with
    | next t => exact ih t
    | fault r => rfl
    | refused r => rfl

end Sys2Proof.Machine
end

