-- ==== Sys2Proof/Tests/Slice0.lean ====
section
/-!
SUPPORT. Small tests, each expected value taken from spec/ (95_test_vectors.md unless said otherwise),
and a named witness for the hypotheses of every obligation that has some.
-/

namespace Sys2Proof.Tests

open Sys2Proof.Machine

/-! ### Well-formedness: an ill-formed number for each check -/

theorem test_wf_command_too_wide : WellFormed.commandNumber 0x20000 = false := by decide
theorem test_wf_command_widest : WellFormed.commandNumber 0x1FFFF = true := by decide
theorem test_wf_operand_too_big : WellFormed.operand 256 = false := by decide
theorem test_wf_operand_biggest : WellFormed.operand 255 = true := by decide
theorem test_wf_raw_too_big : WellFormed.rawOperand 65536 = false := by decide
theorem test_wf_raw_biggest : WellFormed.rawOperand 65535 = true := by decide

/-! ### Decoding: words written out bit by bit from 30_encoding.md R57, `OP mmmmmmmm llllllll` -/

/-- `0 00011111 11111111` is `RAW2MS2 0x1F, 0xFF`. -/
theorem test_decode_raw2ms2 : decode 0b00001111111111111#17 = .raw2ms2 0x1F#8 0xFF#8 := by decide
/-- `1 10101011 11001101` is `RAW2MMS2 0xAB, 0xCD`. -/
theorem test_decode_raw2mms2 : decode 0b11010101111001101#17 = .raw2mms2 0xAB#8 0xCD#8 := by decide
theorem test_encode_raw2ms2 : encode (.raw2ms2 0x1F#8 0xFF#8) = 0x01FFF#17 := by decide
theorem test_encode_raw2mms2 : encode (.raw2mms2 0xAB#8 0xCD#8) = 0x1ABCD#17 := by decide
theorem test_decode_rejects_wide : decodeNumber 0x20000 = .rejected .notACommandWord := by decide

/-! ### The datapath (95_test_vectors.md part 2) -/

theorem test_sxu_ignored_bit15 : sxu 0x80#8 0x01#8 = 0x0001#16 := by decide
theorem test_sxu_negative : sxu 0xAB#8 0xCD#8 = 0xEBCD#16 := by decide
/-- 40_sxu.md R84: the rows of `0x3FFF` and `0x2001`, by each form. -/
theorem test_sxu_forms :
    (signed14 0x3FFF#16, explicitForm 0x3FFF#16, xorForm 0x3FFF#16) = (-1, -1, -1) ∧
    (signed14 0x2001#16, explicitForm 0x2001#16, xorForm 0x2001#16) = (-8191, -8191, -8191) := by decide
theorem test_i2f_binary32 : i2f .binary32 0xEBCD#16 = 0xC5A19800#32 := by decide
theorem test_i2f_binary64 : i2f .binary64 0xE001#16 = 0xC0BFFF0000000000#64 := by decide
theorem test_facc2_binary32 : facc2 .binary32 0x1F76#16 = 0x3FFBB000#32 := by decide
theorem test_facc3_tie_binary32 : facc3 .binary32 0xFFFB#16 = 0xBC44220C#32 := by decide
theorem test_facc3_not_narrowed : facc3 .binary32 17#16 = 0x3D26B68B#32 := by decide
theorem test_facc3_tie_binary64 : facc3 .binary64 3#16 = 0x3F7D6B81D7DBF488#64 := by decide
theorem test_facc3_binary64 : facc3 .binary64 0xEBCD#16 = 0xC028C2C5FD21FF2E#64 := by decide
theorem test_prod_negative : prodOf 0xEBCD#16 = 0xFFFFFFFED1BE6525#64 := by decide
theorem test_ires_truncates : iresOf 0xFFFF#16 = 0xFFFFFFE9#32 := by decide
theorem test_ires_half_remainder : iresOf 4096#16 = 98066#32 := by decide

/-! ### One step -/

/-- The state an outcome reaches, if it reaches one. -/
def reached : Host.Outcome State Fault Refusal → Option State
  | .next t => some t
  | .fault _ => none
  | .refused _ => none

/-- The machine after reset with these actions of the host to come. -/
def withActions (as : List HostAction) : State := { State.reset with pending := as }

/-- The registers after program P1 (95_test_vectors.md part 3). -/
def afterP1 : State :=
  { State.reset with
    amt := 0x1FFF#16, facc := 0x419CE323#32, prod := 0x00000001DEC82947#64, ires := 0x0002FE0D#32,
    fv := 1#1, iv := 1#1 }

/-- P1 step 1. -/
theorem test_step_raw2ms2 : reached (step (State.reset.withFetchWord 24 0x01FFF)) =
    some { State.reset with amt := 0x1FFF#16, facc := 0x419CE323#32, fv := 1#1 } := by decide

/-- P2 step 4: the other path keeps its registers. -/
theorem test_step_raw2mms2 : reached (step (afterP1.withFetchWord 24 0x1ABCD)) =
    some { afterP1 with
      amt := 0xEBCD#16, prod := 0xFFFFFFFED1BE6525#64, ires := 0xFFFE1C64#32 } := by
  decide

/-- P1 step 1 on the machine at binary64: the bracketed image. -/
theorem test_step_binary64 : (stepAt { StateAt.reset .binary64 with
    pending := [.present 0x01FFF#17] }).heldFacc = some 0x40339C645288CE70#64 := by decide

/-- P4 step 4: the read gives `⊥`, not a number, and the run is faulted from there on. -/
theorem test_early_read :
    (reached (step (withActions [.readFacc]))).map (fun t => (t.readings, t.faulted, t.toRegs)) =
      some ([.facc none], true, State.reset.toRegs) := by decide

/-- P4 step 1: `STATUS` may be read at any time, and reading it is no fault. -/
theorem test_status_after_reset :
    (reached (step (withActions [.readStatus]))).map (fun t => (t.readings, t.faulted)) =
      some ([.status 0b00#2], false) := by decide

/-- P1: the reads after step 2. -/
theorem test_read_ires :
    (reached (step { afterP1 with pending := [.readIres] })).map (fun t => (t.readings, t.faulted)) =
      some ([.ires (some 196109#32)], false) := by decide

/-- P5 step 5: reset leaves no value behind. -/
theorem test_reset_step :
    (reached (step { afterP1 with pending := [.reset none] })).map
      (fun t => (t.status, t.heldAmt, t.heldFacc, t.heldProd, t.heldIres)) =
      some (0b00#2, none, none, none, none) := by decide

/-! ### The text form (30_encoding.md R63, R64; program P3) -/

theorem test_assemble_word_form : assembleLine
    ['R', 'A', 'W', '2', 'M', 'S', '2', '.', 'W', ' ', '0', 'x', 'F', 'F', 'F', 'B'] =
    .command (.raw2ms2 0xFF#8 0xFB#8) := by decide

theorem test_assemble_bytes_and_comment : assembleLine
    ['R', 'A', 'W', '2', 'M', 'M', 'S', '2', ' ', '0', 'b', '1', '1', ',', ' ', '2', '5', '5', ';', 'x'] =
    .command (.raw2mms2 3#8 255#8) := by decide

theorem test_assemble_out_of_range :
    assembleLine ['R', 'A', 'W', '2', 'M', 'S', '2', ' ', '2', '5', '6', ',', '0'] =
    .error .outOfRange := by decide

/-! ### Witnesses: the hypotheses of each obligation can be met -/

theorem test_reset_inv : State.reset.Inv := by
  simp [State.Inv, StateAt.Inv, StateAt.ReadingsInv, Regs.Inv]

/-- What the host is still going to do does not matter to the invariant. -/
theorem withActions_inv (as : List HostAction) : (withActions as).Inv := test_reset_inv

theorem witness_inRange_least : inRange (-8192#16) := by unfold inRange; decide
theorem witness_inRange_greatest : inRange 8191#16 := by unfold inRange; decide
theorem witness_inRange_zero : inRange 0#16 ∧ (0#16).toInt = 0 := by unfold inRange; decide
theorem witness_inRange_nonzero : inRange (-1#16) ∧ (-1#16) ≠ 0#16 := by unfold inRange; decide

/-- A state in which both results are held, and have been read, meets the invariant too. -/
theorem witness_inv_both_valid :
    ({ afterP1 with readings := [.facc (some 0x419CE323#32), .ires (some 0x0002FE0D#32)] } : State).Inv := by
  have hf : facc3 Config.fmt 8191#16 = 0x419CE323#32 := by decide
  have hp : prodOf 8191#16 = 0x00000001DEC82947#64 := by decide
  have hi : iresOf 8191#16 = 0x0002FE0D#32 := by decide
  refine ⟨⟨fun _ => witness_inRange_greatest, fun _ => ⟨8191#16, witness_inRange_greatest, hf.symm⟩,
    fun _ => ⟨8191#16, witness_inRange_greatest, hp.symm, hi.symm⟩⟩, ?_, ?_, ?_⟩
  · intro v hv
    have h : v = 0x419CE323#32 := by simpa using hv
    exact ⟨8191#16, witness_inRange_greatest, h.trans hf.symm⟩
  · intro v hv
    have h : v = 0x0002FE0D#32 := by simpa using hv
    exact ⟨8191#16, witness_inRange_greatest, h.trans hi.symm⟩
  · simp

/-- A faulted run meets the invariant too. -/
theorem witness_inv_faulted :
    ({ State.reset with readings := [.facc none], faulted := true } : State).Inv := by
  simp [State.Inv, StateAt.Inv, StateAt.ReadingsInv, Regs.Inv]

theorem witness_DecodeEncodeBijection :
    (0x00000#17).getLsbD 16 = false ∧ (0x0FFFF#17).getLsbD 16 = false ∧
    (0x10000#17).getLsbD 16 = true ∧ (0x1FFFF#17).getLsbD 16 = true := by decide

theorem witness_AllCommandWordsLegal : 0x1FFFF < 0x20000 ∧ 0x20000 ≤ 0x20000 := by decide

theorem witness_AliasesAndWordForms :
    (65535 ≤ 65535 ∧ makeWord true 65535 = .command (.raw2mms2 0xFF#8 0xFF#8)) ∧
    (65535 < 65536 ∧ makeWord false 65536 = .error .outOfRange ∧
      makeWord true 65536 = .error .outOfRange) := by decide

theorem witness_AssemblyOperandRange : (255 ≤ 255 ∧ 255 ≤ 255) ∧ (255 < 256 ∨ 255 < 0) ∧
    (255 < 0 ∨ 255 < 256) := by decide

theorem witness_SxuFormsAgree :
    8192 ≤ (rawWord 0x20#8 0x00#8).toNat % 16384 ∧ (rawWord 0x1F#8 0xFF#8).toNat % 16384 < 8192 := by
  decide

theorem witness_SxuExtremesAndNegation :
    ((rawWord 0x20#8 0x01#8).toNat % 16384 = (16384 - (rawWord 0x1F#8 0xFF#8).toNat % 16384) % 16384 ∧
      (rawWord 0x1F#8 0xFF#8).toNat % 16384 ≠ 0x2000) ∧
    ((rawWord 0x20#8 0x00#8).toNat % 16384 = (16384 - (rawWord 0x20#8 0x00#8).toNat % 16384) % 16384 ∧
      (rawWord 0x20#8 0x00#8).toNat % 16384 = 0x2000) := by decide

theorem witness_ConversionImage :
    (2 ^ 0 ≤ (1#16).toInt.natAbs ∧ (1#16).toInt.natAbs < 2 ^ (0 + 1)) ∧
    (2 ^ 15 ≤ (0x8000#16).toInt.natAbs ∧ (0x8000#16).toInt.natAbs < 2 ^ (15 + 1)) := by decide

/-- A zero, the least normal number and the greatest finite number. -/
theorem witness_RoundingIsNearestEven :
    rnd .binary32 true 0 0 = some 0x80000000#32 ∧
    rnd .binary32 false 1 (-126) = some 0x00800000#32 ∧
    rnd .binary64 false (2 ^ 53 - 1) 971 = some 0x7FEFFFFFFFFFFFFF#64 := by decide

/-- `+0` times one, for the clause of a zero product. -/
theorem witness_MultiplierRoundsExactProduct_zero :
    isOperand .binary32 0#32 = true ∧ isOperand .binary32 0x3F800000#32 = true ∧
    val .binary32 0#32 * val .binary32 0x3F800000#32 = 0 := by
  have h : significand .binary32 0#32 = 0 := by decide
  refine ⟨by decide, by decide, ?_⟩
  simp [val, h]

/-- The value of the image of one. -/
theorem val_one : val .binary32 0x3F800000#32 = 1 := by
  have h1 : signBit .binary32 0x3F800000#32 = false := by decide
  have h2 : significand .binary32 0x3F800000#32 = 8388608 := by decide
  have h3 : scale .binary32 0x3F800000#32 = -23 := by decide
  rw [val, h1, h2, h3]
  norm_num

/-- The least normal number times one, for the lower end of the range. -/
theorem witness_MultiplierRoundsExactProduct_least :
    isOperand .binary32 0x00800000#32 = true ∧ isOperand .binary32 0x3F800000#32 = true ∧
    minNormal .binary32 ≤ |val .binary32 0x00800000#32 * val .binary32 0x3F800000#32| ∧
    |val .binary32 0x00800000#32 * val .binary32 0x3F800000#32| < roundLimit .binary32 := by
  have h1 : signBit .binary32 0x00800000#32 = false := by decide
  have h2 : significand .binary32 0x00800000#32 = 8388608 := by decide
  have h3 : scale .binary32 0x00800000#32 = -149 := by decide
  refine ⟨by decide, by decide, ?_, ?_⟩ <;> rw [val_one, val, h1, h2, h3] <;>
    norm_num [minNormal, roundLimit, bias, fracBits]

/-- A product above the greatest finite number that still rounds to it, for the upper end of the
range: significands `2^24 − 4000` and `2^23 + 2000`. -/
theorem witness_MultiplierRoundsExactProduct_greatest :
    isOperand .binary32 0x7F7FF060#32 = true ∧ isOperand .binary32 0x3F8007D0#32 = true ∧
    val .binary32 0x7F7FFFFF#32 < |val .binary32 0x7F7FF060#32 * val .binary32 0x3F8007D0#32| ∧
    minNormal .binary32 ≤ |val .binary32 0x7F7FF060#32 * val .binary32 0x3F8007D0#32| ∧
    |val .binary32 0x7F7FF060#32 * val .binary32 0x3F8007D0#32| < roundLimit .binary32 := by
  have h1 : signBit .binary32 0x7F7FF060#32 = false := by decide
  have h2 : significand .binary32 0x7F7FF060#32 = 16773216 := by decide
  have h3 : scale .binary32 0x7F7FF060#32 = 104 := by decide
  have k1 : signBit .binary32 0x3F8007D0#32 = false := by decide
  have k2 : significand .binary32 0x3F8007D0#32 = 8390608 := by decide
  have k3 : scale .binary32 0x3F8007D0#32 = -23 := by decide
  have g1 : signBit .binary32 0x7F7FFFFF#32 = false := by decide
  have g2 : significand .binary32 0x7F7FFFFF#32 = 16777215 := by decide
  have g3 : scale .binary32 0x7F7FFFFF#32 = 104 := by decide
  refine ⟨by decide, by decide, ?_, ?_, ?_⟩ <;>
    norm_num [val, h1, h2, h3, k1, k2, k3, g1, g2, g3, minNormal, roundLimit, bias, fracBits]

/-- The value of the binary64 image of one. -/
theorem val_one_binary64 : val .binary64 0x3FF0000000000000#64 = 1 := by
  have h1 : signBit .binary64 0x3FF0000000000000#64 = false := by decide
  have h2 : significand .binary64 0x3FF0000000000000#64 = 4503599627370496 := by decide
  have h3 : scale .binary64 0x3FF0000000000000#64 = -52 := by decide
  rw [val, h1, h2, h3]
  norm_num

/-- The two ends of the range in binary64, and a zero. -/
theorem witness_MultiplierRoundsExactProduct_binary64 :
    (isOperand .binary64 0x0010000000000000#64 = true ∧
      minNormal .binary64 ≤ |val .binary64 0x0010000000000000#64 * val .binary64 0x3FF0000000000000#64| ∧
      |val .binary64 0x0010000000000000#64 * val .binary64 0x3FF0000000000000#64| <
        roundLimit .binary64) ∧
    (isOperand .binary64 0x7FEFFFFFFFFFFFFF#64 = true ∧
      minNormal .binary64 ≤ |val .binary64 0x7FEFFFFFFFFFFFFF#64 * val .binary64 0x3FF0000000000000#64| ∧
      |val .binary64 0x7FEFFFFFFFFFFFFF#64 * val .binary64 0x3FF0000000000000#64| <
        roundLimit .binary64) ∧
    isOperand .binary64 0x3FF0000000000000#64 = true ∧
    val .binary64 0#64 * val .binary64 0x3FF0000000000000#64 = 0 := by
  have h1 : signBit .binary64 0x0010000000000000#64 = false := by decide
  have h2 : significand .binary64 0x0010000000000000#64 = 2 ^ 52 := by decide
  have h3 : scale .binary64 0x0010000000000000#64 = -1074 := by decide
  have k1 : signBit .binary64 0x7FEFFFFFFFFFFFFF#64 = false := by decide
  have k2 : significand .binary64 0x7FEFFFFFFFFFFFFF#64 = 2 ^ 53 - 1 := by decide
  have k3 : scale .binary64 0x7FEFFFFFFFFFFFFF#64 = 970 + 1 := by decide
  have z : significand .binary64 0#64 = 0 := by decide
  have low : val .binary64 0x0010000000000000#64 = 2 ^ (-1022 : Int) := by
    have h : (2 : ℚ) ^ (52 + -1074 : Int) = 2 ^ (52 : Int) * 2 ^ (-1074 : Int) :=
      zpow_add₀ two_ne_zero _ _
    rw [val, h1, h2, h3, show (-1022 : Int) = 52 + -1074 from rfl, h, if_neg Bool.false_ne_true, one_mul,
      Nat.cast_pow, Nat.cast_ofNat]
    rfl
  have high : val .binary64 0x7FEFFFFFFFFFFFFF#64 = (2 ^ 53 - 1) * (2 * 2 ^ (970 : Int)) := by
    rw [val, k1, k2, k3, zpow_add_one₀ two_ne_zero, mul_comm _ (2 : ℚ)]
    norm_num
  have least : minNormal .binary64 = 2 ^ (-1022 : Int) := rfl
  have limit : roundLimit .binary64 = (2 ^ 54 - 1) * 2 ^ (970 : Int) := rfl
  have up : (2 : ℚ) ^ (-1022 : Int) ≤ 2 ^ (970 : Int) := zpow_le_zpow_right₀ one_le_two (by decide)
  have pos : (0 : ℚ) < 2 ^ (-1022 : Int) := zpow_pos two_pos _
  rw [val_one_binary64, mul_one, mul_one, low, high, least, limit]
  generalize (2 : ℚ) ^ (-1022 : Int) = d at *
  generalize (2 : ℚ) ^ (970 : Int) = c at *
  rw [abs_of_pos pos, abs_of_pos (by linarith)]
  refine ⟨⟨by decide, le_refl d, ?_⟩, ⟨by decide, ?_, ?_⟩, by decide, ?_⟩
  · linarith
  · linarith
  · linarith
  · simp [val, z]

theorem witness_increasing_amounts :
    inRange (-8192#16) ∧ inRange (-8191#16) ∧ (-8192#16).toInt < (-8191#16).toInt ∧
    inRange 8190#16 ∧ inRange 8191#16 ∧ (8190#16).toInt < (8191#16).toInt := by
  unfold inRange; decide

theorem witness_symmetric_amounts :
    (1 ≤ (1#16).toInt ∧ (1#16).toInt ≤ 8191) ∧ (1 ≤ (8191#16).toInt ∧ (8191#16).toInt ≤ 8191) := by
  decide

theorem witness_NarrowAtEnd_small : inRange (-16#16) ∧ (-16#16).toInt.natAbs < 17 := by
  unfold inRange; decide

theorem witness_TieAmounts : (1 ≤ 1 ∧ 1 ≤ 8192) ∧ (1 ≤ 8192 ∧ 8192 ≤ 8192) := by decide

theorem witness_TruncationIsNotFloor :
    (inRange 0#16 ∧ 0 ≤ (0#16).toInt) ∧ (inRange (-8192#16) ∧ (-8192#16).toInt < 0) ∧
    (inRange (-8191#16) ∧ (-8191#16).toInt < 0 ∧ (-8191#16).toInt ≠ -8192) ∧
    (inRange (-1#16) ∧ (-1#16).toInt < 0 ∧ (-1#16).toInt ≠ -8192) := by
  unfold inRange; decide

/-- A state a first command reaches, from which the second of the statement goes on. -/
theorem witness_Raw2ms2Completes :
    exec (.raw2ms2 0xFF#8 0xFF#8) State.reset = answer (raw2ms2At 0xFF#8 0xFF#8 (StateAt.reset _)) := rfl

theorem witness_Raw2mms2Completes :
    exec (.raw2mms2 0xFF#8 0xFF#8) State.reset = answer (raw2mms2At 0xFF#8 0xFF#8 (StateAt.reset _)) := rfl

theorem witness_DivisionRemainders :
    0 < (prodOf 1#16).toInt.tmod 40960 ∧ (prodOf (-1#16)).toInt.tmod 40960 < 0 := by decide

theorem witness_ResetBeatsCommand :
    (withActions [.reset none]).pending = .reset none :: [] ∧
    (withActions [.reset (some 0x1FFFF#17)]).pending = .reset (some 0x1FFFF#17) :: [] := ⟨rfl, rfl⟩

theorem witness_StepRunsDecodedCommand :
    (withActions [.present 0x00000#17]).pending = .present 0x00000#17 :: [] ∧
    decodeTableWord 24 0x1FFFF = some (.raw2mms2 0xFF#8 0xFF#8) ∧ State.reset.pending = [] :=
  ⟨rfl, by decide, rfl⟩

theorem witness_HostReadsReturnAndKeep :
    (withActions [.readStatus]).pending = .readStatus :: [] ∧
    (({ afterP1 with pending := [.readFacc] } : State).pending = .readFacc :: [] ∧ afterP1.fv = 1#1) ∧
    (({ afterP1 with pending := [.readIres] } : State).pending = .readIres :: [] ∧ afterP1.iv = 1#1) :=
  ⟨rfl, ⟨rfl, rfl⟩, rfl, rfl⟩

theorem witness_EarlyReadFaults :
    ((withActions [.readFacc]).pending = .readFacc :: [] ∧ (withActions [.readFacc]).fv = 0#1) ∧
    ((withActions [.readIres]).pending = .readIres :: [] ∧ (withActions [.readIres]).iv = 0#1) :=
  ⟨⟨rfl, rfl⟩, rfl, rfl⟩

/-- Each way in which a run is faulted after a step, and a step after which it is not. -/
theorem witness_OnlyEarlyReadsFault :
    (reached (step (withActions [.readFacc]))).map (·.faulted) = some true ∧
    (reached (step (withActions [.readIres]))).map (·.faulted) = some true ∧
    (reached (step { withActions [.reset none] with faulted := true })).map (·.faulted) = some true ∧
    (reached (step { afterP1 with pending := [.readFacc] })).map (·.faulted) = some false := by decide

theorem witness_ValidBitsClearedOnlyByReset_clears :
    step { afterP1 with pending := [.reset none] } = .next State.reset ∧
    (afterP1.fv = 1#1 ∧ State.reset.fv = 0#1) ∧ (afterP1.iv = 1#1 ∧ State.reset.iv = 0#1) :=
  ⟨rfl, ⟨rfl, rfl⟩, rfl, rfl⟩

theorem witness_ValidBitsClearedOnlyByReset_sets :
    (step (withActions [.present 0x00001#17]) = answer (raw2ms2At 0x00#8 0x01#8 (StateAt.reset _)) ∧
      State.reset.fv = 0#1 ∧ (raw2ms2At 0x00#8 0x01#8 (StateAt.reset Config.fmt)).fv = 1#1) ∧
    (step (withActions [.present 0x10001#17]) = answer (raw2mms2At 0x00#8 0x01#8 (StateAt.reset _)) ∧
      State.reset.iv = 0#1 ∧ (raw2mms2At 0x00#8 0x01#8 (StateAt.reset Config.fmt)).iv = 1#1) :=
  ⟨⟨rfl, rfl, rfl⟩, rfl, rfl, rfl⟩

theorem witness_ResultsChangeOnlyByOwnKind :
    (step (withActions [.present 0x00001#17]) = answer (raw2ms2At 0x00#8 0x01#8 (StateAt.reset _)) ∧
      (raw2ms2At 0x00#8 0x01#8 (StateAt.reset Config.fmt)).facc ≠ State.reset.facc) ∧
    (step { afterP1 with pending := [.reset none] } = .next State.reset ∧
      State.reset.facc ≠ afterP1.facc ∧ State.reset.ires ≠ afterP1.ires ∧
      State.reset.prod ≠ afterP1.prod) := by
  refine ⟨⟨rfl, by decide⟩, rfl, ?_⟩
  decide

/-- Two states that only the bits behind the valid bits 0, and `AMT`, tell apart. -/
theorem witness_HiddenBitsReachNothing :
    SameToHost State.reset.toStateAt
      { StateAt.reset Config.fmt with
        amt := 0xFFFF#16, facc := 0x7FC00000#32, prod := 5#64, ires := 23#32 } ∧
    SameToHost { afterP1.toStateAt with pending := [.readFacc] }
      { afterP1.toStateAt with pending := [.readFacc], amt := 0#16, prod := 0#64 } :=
  ⟨⟨rfl, rfl, rfl, rfl, rfl, rfl, rfl⟩, rfl, rfl, rfl, rfl, rfl, rfl, rfl⟩

theorem witness_StepKeepsInv :
    (State.reset.Inv ∧ step State.reset = .next State.reset) ∧
    ((withActions [.readFacc]).Inv ∧ step (withActions [.readFacc]) =
      .next { State.reset with readings := [.facc none], faulted := true }) :=
  ⟨⟨test_reset_inv, rfl⟩, withActions_inv _, rfl⟩

theorem witness_CommandListFold :
    (withActions [.present 0x01FFF#17, .present 0x11FFF#17, .readStatus]).pending =
      [0x01FFF#17, 0x11FFF#17].map HostAction.present ++ [.readStatus] := rfl

/-- Both sides of the equivalence are met somewhere: a dutiful host, one that reads early, and one that
reads after a reset took the result away. -/
theorem witness_DutifulHostNeverFaults :
    ((withActions [.present 0x00001#17, .readFacc]).faulted = false ∧
      hostDuty false false [.present 0x00001#17, .readFacc] = true) ∧
    ((withActions [.present 0x00001#17, .readIres]).faulted = false ∧
      hostDuty false false [.present 0x00001#17, .readIres] = false) ∧
    ((withActions [.present 0x10001#17, .reset none, .readIres]).faulted = false ∧
      hostDuty false false [.present 0x10001#17, .reset none, .readIres] = false) := by decide

end Sys2Proof.Tests
end

section
/-!
PROOFS. The two commands as updates of the registers at either format, and a list of commands as the fold of
them (00_scope.md R7, R18).
-/

namespace Sys2Proof.Machine

section Commands
variable {f : Format} (s : StateAt f)

/-- `FACC` after a `RAW2MS2`, its three writes composed (42_fmac.md R98). -/
theorem facc3_eq (f : Format) (amt : Half) :
    facc3 f amt = fmul f (fmul f (i2f f amt) (kSens f)) (kG f) := rfl

/-- Everything a `RAW2MS2` does to the machine (10_state.md R36). -/
theorem commandAt_raw2ms2 (m l : Byte) :
    commandAt (.raw2ms2 m l) s =
      { s with amt := sxu m l, facc := facc3 f (sxu m l), fv := 1#1 } := rfl

/-- Everything a `RAW2MMS2` does to the machine (10_state.md R36). -/
theorem commandAt_raw2mms2 (m l : Byte) :
    commandAt (.raw2mms2 m l) s =
      { s with amt := sxu m l, prod := prodOf (sxu m l), ires := iresOf (sxu m l), iv := 1#1 } := rfl

/-- A command leaves the host's side of the machine as it was. -/
theorem commandAt_eq_setRegs (i : Instr) : commandAt i s = s.setRegs (commandAt i s).toRegs := by
  cases i <;> rfl

/-- What a command leaves in the registers does not depend on what the host does next. -/
theorem commandAt_toRegs_of_pending (i : Instr) (rest : List HostAction) :
    (commandAt i { s with pending := rest }).toRegs = (commandAt i s).toRegs := by
  cases i <;> rfl

variable {s} in
/-- A step at a presented word executes the decoded command and takes the word off the list
(20_memory.md R47). -/
theorem stepAt_present {w : CommandWord} {rest : List HostAction}
    (h : s.pending = .present w :: rest) :
    stepAt s = { s with toRegs := (commandAt (decode w) s).toRegs, pending := rest } := by
  rw [stepAt_pending h, performAt, commandAt_eq_setRegs, commandAt_toRegs_of_pending]
  rfl

end Commands

section LastOf
variable (op : BitVec 1) (i : Instr) (is : List Instr)

/-- The first command of a list is the last of its kind only where no later one is of that kind. -/
theorem lastOf_cons :
    lastOf op (i :: is) = (lastOf op is).or (if i.op = op then some i else none) := by
  simp only [lastOf, List.reverse_cons, List.find?_append, List.find?_singleton, beq_iff_eq]

/-- A register that a list of commands writes from the last of a kind, its first command taken as done before
the others. -/
theorem lastOf_cons_map_getD {α : Type} (g : Instr → α) (a : α) :
    ((lastOf op (i :: is)).map g).getD a =
      ((lastOf op is).map g).getD (if i.op = op then g i else a) := by
  rw [lastOf_cons]
  cases lastOf op is with
  | some j => rfl
  | none => split <;> rfl

/-- A register that every command of a list writes, its first command taken as done before the others. -/
theorem getLast?_cons_map_getD {α : Type} (g : Instr → α) (a : α) :
    ((i :: is).getLast?.map g).getD a = (is.getLast?.map g).getD (g i) := by
  rw [List.getLast?_cons, Option.getD_map]
  rfl

end LastOf

section AfterCommands
variable {f : Format}

/-- No command changes nothing. -/
theorem afterCommands_nil (r : Regs f) : afterCommands [] r = r := rfl

/-- A list of commands does what its first command does and then what the rest does. -/
theorem afterCommands_cons (i : Instr) (is : List Instr) (s : StateAt f) :
    afterCommands (i :: is) s.toRegs = afterCommands is (commandAt i s).toRegs := by
  unfold afterCommands
  simp only [getLast?_cons_map_getD, lastOf_cons_map_getD]
  cases i with
  | raw2ms2 m l => simp [commandAt_raw2ms2, lastOf_cons, Instr.op, amtOf, Instr.msb, Instr.lsb]
  | raw2mms2 m l => simp [commandAt_raw2mms2, lastOf_cons, Instr.op, amtOf, Instr.msb, Instr.lsb]

end AfterCommands

/-- A run along a list of presented words is the fold of their commands (70_reset_and_hazards.md R159). -/
theorem runAt_present_list {f : Format} (ws : List CommandWord) (rest : List HostAction)
    (s : StateAt f) (h : s.pending = ws.map HostAction.present ++ rest) :
    runAt ws.length s =
      { s with toRegs := afterCommands (ws.map decode) s.toRegs, pending := rest } := by
  induction ws generalizing s with
  | nil =>
    have hp : s.pending = rest := h
    rw [List.map_nil, afterCommands_nil, ← hp]
    rfl
  | cons w ws ih =>
    rw [List.length_cons, runAt, stepAt_present h, ih _ rfl, List.map_cons, afterCommands_cons]

end Sys2Proof.Machine

namespace Sys2Proof.Proofs
open Sys2Proof.Machine

/-- Settles O44: each effect by the register update of its command, and this hardware's machine by the laws
`exec_eq` and `step_eq`. -/
theorem effectsForBothFormats : Obligations.EffectsForBothFormats := by
  refine ⟨fun f m l s => ⟨?_, commandAt_raw2mms2 s m l⟩, exec_eq, step_eq⟩
  rw [commandAt_raw2ms2, facc3_eq]

/-- Settles O59, by induction on the list of words; this hardware's run is the run at its format. -/
theorem commandListFold : Obligations.CommandListFold := by
  refine ⟨fun s ws rest h => ?_, fun _ s ws rest h => runAt_present_list ws rest s h⟩
  rw [run_eq, runAt_present_list ws rest s.toStateAt h]

end Sys2Proof.Proofs
end

section
/-!
PROOFS. What a step keeps of the registers and of what the host is given, and what the host can see of them
(10_state.md R21 to R37, 70_reset_and_hazards.md R153, R155).
-/

namespace Sys2Proof.Machine

section Amount
variable (m l : Byte)

/-- The amount of a command, as the signed 14-bit field of its two bytes (40_sxu.md R76). -/
theorem sxu_toInt : (sxu m l).toInt = signed14 (rawWord m l) := shiftForm_eq_signed14 _

/-- Every command works from an amount in range (40_sxu.md R74). -/
theorem sxu_inRange : inRange (sxu m l) := by
  rw [inRange, sxu_toInt]
  have low : -2 ^ 13 ≤ (field14 (rawWord m l)).toInt := BitVec.le_toInt _
  have high : (field14 (rawWord m l)).toInt < 2 ^ 13 := BitVec.toInt_lt
  exact ⟨low, Int.lt_add_one_iff.mp high⟩

end Amount

/-! ### The invariant of the registers -/

section RegsInv
variable {f : Format} {r : Regs f}

/-- After reset no register holds a value, so nothing is claimed of one. -/
theorem Regs.reset_inv (f : Format) : (Regs.reset f).Inv := by
  simp [Regs.Inv]

/-- `RAW2MS2` keeps the invariant: `AMT` and `FACC` come from its own amount. -/
theorem Regs.Inv.raw2ms2Regs (h : r.Inv) (m l : Byte) : (raw2ms2Regs f m l r).Inv := by
  obtain ⟨_, _, hint⟩ := h
  exact ⟨fun _ => sxu_inRange m l, fun _ => ⟨sxu m l, sxu_inRange m l, rfl⟩, hint⟩

/-- `RAW2MMS2` keeps the invariant: `AMT`, `PROD` and `IRES` come from its own amount. -/
theorem Regs.Inv.raw2mms2Regs (h : r.Inv) (m l : Byte) : (raw2mms2Regs m l r).Inv := by
  obtain ⟨_, hfloat, _⟩ := h
  exact ⟨fun _ => sxu_inRange m l, hfloat, fun _ => ⟨sxu m l, sxu_inRange m l, rfl, rfl⟩⟩

end RegsInv

/-! ### The invariant of what the host was given -/

section Readings
variable {f : Format} {s : StateAt f}

/-- What the invariant asks of one reading, in a run that is `faulted` or not: a number is the result of some
command, and `⊥` was read in a faulted run only. -/
def Reading.Genuine (faulted : Bool) : Reading f → Prop
  | .status _ => True
  | .facc (some v) => ∃ a, inRange a ∧ v = facc3 f a
  | .ires (some v) => ∃ a, inRange a ∧ v = iresOf a
  | .facc none => faulted = true
  | .ires none => faulted = true

/-- The invariant of the readings asks the same of each of them. -/
theorem readingsInv_iff : s.ReadingsInv ↔ ∀ v ∈ s.readings, v.Genuine s.faulted := by
  constructor
  · rintro ⟨hfacc, hires, hnone⟩ v hv
    match v with
    | .status _ => trivial
    | .facc (some v) => exact hfacc v hv
    | .ires (some v) => exact hires v hv
    | .facc none => exact hnone (.inl hv)
    | .ires none => exact hnone (.inr hv)
  · intro h
    exact ⟨fun v hv => h _ hv, fun v hv => h _ hv, fun hv => hv.elim (h _) (h _)⟩

/-- A reading stays genuine when the run is judged to be faulted. -/
theorem Reading.Genuine.or {faulted : Bool} {v : Reading f} (h : v.Genuine faulted) (b : Bool) :
    v.Genuine (faulted || b) := by
  match v with
  | .status _ => trivial
  | .facc (some _) => exact h
  | .ires (some _) => exact h
  | .facc none => exact Bool.or_eq_true_iff.mpr (.inl h)
  | .ires none => exact Bool.or_eq_true_iff.mpr (.inl h)

/-- A read of `FACC` is genuine in the run judged by it: with `FV = 1` by the invariant of the registers, with
`FV = 0` because the run is then faulted. -/
theorem Regs.Inv.genuine_heldFacc {r : Regs f} (h : r.Inv) (faulted : Bool) :
    (Reading.facc r.heldFacc).Genuine (faulted || !r.heldFacc.isSome) := by
  obtain ⟨_, hfloat, _⟩ := h
  by_cases hv : r.fv = 1#1
  · rw [Regs.heldFacc_valid r hv]
    exact hfloat hv
  · rw [Regs.heldFacc, if_neg hv]
    exact Bool.or_true faulted

/-- A read of `IRES` is genuine in the run judged by it, as one of `FACC` is. -/
theorem Regs.Inv.genuine_heldIres {r : Regs f} (h : r.Inv) (faulted : Bool) :
    (Reading.ires (f := f) r.heldIres).Genuine (faulted || !r.heldIres.isSome) := by
  obtain ⟨_, _, hint⟩ := h
  by_cases hv : r.iv = 1#1
  · rw [Regs.heldIres_valid r hv]
    obtain ⟨a, ha, _, hires⟩ := hint hv
    exact ⟨a, ha, hires⟩
  · rw [Regs.heldIres, if_neg hv]
    exact Bool.or_true faulted

end Readings

/-! ### The invariant of the machine -/

section Inv
variable {f : Format} {s : StateAt f}

theorem StateAt.reset_inv (f : Format) : (StateAt.reset f).Inv :=
  ⟨Regs.reset_inv f, readingsInv_iff.mpr (List.forall_mem_nil _)⟩

theorem StateAt.Inv.setRegs (h : s.Inv) {r : Regs f} (hr : r.Inv) : (s.setRegs r).Inv := ⟨hr, h.2⟩

theorem StateAt.Inv.deliver (h : s.Inv) {v : Reading f} (hv : v.Genuine s.faulted) :
    (s.deliver v).Inv :=
  ⟨h.1, readingsInv_iff.mpr (List.forall_mem_cons.mpr ⟨hv, readingsInv_iff.mp h.2⟩)⟩

theorem StateAt.Inv.judge (h : s.Inv) (allowed : Bool) : (s.judge allowed).Inv :=
  ⟨h.1, readingsInv_iff.mpr fun v hv => (readingsInv_iff.mp h.2 v hv).or _⟩

/-- A delivered value may be judged before it is delivered. -/
theorem StateAt.judge_deliver (s : StateAt f) (v : Reading f) (allowed : Bool) :
    (s.deliver v).judge allowed = (s.judge allowed).deliver v := rfl

theorem StateAt.Inv.commandAt (h : s.Inv) (i : Instr) : (commandAt i s).Inv := by
  cases i with
  | raw2ms2 m l => exact h.setRegs (h.1.raw2ms2Regs m l)
  | raw2mms2 m l => exact h.setRegs (h.1.raw2mms2Regs m l)

theorem StateAt.Inv.readFaccAt (h : s.Inv) : (readFaccAt s).Inv := by
  rw [Machine.readFaccAt, judge_deliver]
  exact (h.judge _).deliver (h.1.genuine_heldFacc _)

theorem StateAt.Inv.readIresAt (h : s.Inv) : (readIresAt s).Inv := by
  rw [Machine.readIresAt, judge_deliver]
  exact (h.judge _).deliver (h.1.genuine_heldIres _)

/-- Whatever the host does, it keeps the invariant. -/
theorem StateAt.Inv.performAt (h : s.Inv) (a : HostAction) : (performAt a s).Inv := by
  cases a with
  | present w => exact h.commandAt (decode w)
  | readStatus => exact h.deliver trivial
  | readFacc => exact h.readFaccAt
  | readIres => exact h.readIresAt
  | reset cut => exact h.setRegs (Regs.reset_inv f)

/-- Every step keeps the invariant; what the host is still going to do does not matter to it. -/
theorem StateAt.Inv.stepAt (h : s.Inv) : (stepAt s).Inv := by
  cases hp : s.pending with
  | nil => rwa [stepAt_idle hp]
  | cons a rest =>
    rw [stepAt_pending hp]
    have hrest : ({ s with pending := rest } : StateAt f).Inv := h
    exact hrest.performAt a

end Inv

/-! ### What the host can tell apart -/

section SameToHost
variable {f : Format} {s t : StateAt f}

theorem SameToHost.deliver (h : SameToHost s t) (v : Reading f) :
    SameToHost (s.deliver v) (t.deliver v) :=
  { h with readings := congrArg (v :: ·) h.readings }

theorem SameToHost.judge (h : SameToHost s t) (allowed : Bool) :
    SameToHost (s.judge allowed) (t.judge allowed) :=
  { h with faulted := congrArg (· || !allowed) h.faulted }

/-- A command's result is the same in both states, and it leaves the other result (10_state.md R34). -/
theorem SameToHost.commandAt (h : SameToHost s t) (i : Instr) :
    SameToHost (commandAt i s) (commandAt i t) := by
  cases i with
  | raw2ms2 m l => exact { h with fv := rfl, heldFacc := rfl }
  | raw2mms2 m l => exact { h with iv := rfl, heldIres := rfl }

theorem SameToHost.status (h : SameToHost s t) : s.status = t.status := by
  rw [Regs.status, Regs.status, h.fv, h.iv]

theorem SameToHost.assertReset (h : SameToHost s t) (cut : Option CommandWord) :
    SameToHost (s.assertReset cut) (t.assertReset cut) :=
  { h with fv := rfl, iv := rfl, heldFacc := rfl, heldIres := rfl }

/-- No action of the host tells the two states apart. -/
theorem SameToHost.performAt (h : SameToHost s t) (a : HostAction) :
    SameToHost (performAt a s) (performAt a t) := by
  cases a with
  | present w => exact h.commandAt (decode w)
  | readStatus =>
    simp only [Machine.performAt, readStatusAt, h.status]
    exact h.deliver _
  | readFacc =>
    simp only [Machine.performAt, readFaccAt, h.heldFacc]
    exact (h.deliver _).judge _
  | readIres =>
    simp only [Machine.performAt, readIresAt, h.heldIres]
    exact (h.deliver _).judge _
  | reset cut => exact h.assertReset cut

/-- No step tells the two states apart. -/
theorem SameToHost.stepAt (h : SameToHost s t) : SameToHost (stepAt s) (stepAt t) := by
  cases hp : s.pending with
  | nil => rwa [stepAt_idle hp, stepAt_idle (h.pending ▸ hp)]
  | cons a rest =>
    rw [stepAt_pending hp, stepAt_pending (h.pending ▸ hp)]
    have hrest : SameToHost { s with pending := rest } { t with pending := rest } :=
      { h with pending := rfl }
    exact hrest.performAt a

/-- No run tells the two states apart. -/
theorem SameToHost.runAt (h : SameToHost s t) (k : Nat) : SameToHost (runAt k s) (runAt k t) := by
  induction k generalizing s t with
  | zero => exact h
  | succ k ih => exact ih h.stepAt

end SameToHost

/-! ### The valid bits, the allowed reads and a command done twice -/

/-- A bit that stays as it is does not go from 1 to 0. -/
theorem bit_not_one_and_zero : ∀ b : BitVec 1, ¬(b = 1#1 ∧ b = 0#1) := by decide

/-- A bit that stays as it is does not go from 0 to 1. -/
theorem bit_not_zero_and_one : ∀ b : BitVec 1, ¬(b = 0#1 ∧ b = 1#1) := by decide

/-- What a step can do to the valid bits: nothing, or a command sets the one of its kind, or reset clears
both (10_state.md R25, R26). -/
theorem stepAt_validBits {f : Format} (s : StateAt f) :
    ((stepAt s).fv = s.fv ∧ (stepAt s).iv = s.iv) ∨
    (∃ w rest m l, s.pending = .present w :: rest ∧ decode w = .raw2ms2 m l ∧
      (stepAt s).fv = 1#1 ∧ (stepAt s).iv = s.iv) ∨
    (∃ w rest m l, s.pending = .present w :: rest ∧ decode w = .raw2mms2 m l ∧
      (stepAt s).fv = s.fv ∧ (stepAt s).iv = 1#1) ∨
    (∃ cut rest, s.pending = .reset cut :: rest ∧ (stepAt s).fv = 0#1 ∧ (stepAt s).iv = 0#1) := by
  rcases stepAt_cases s with ⟨_, hs⟩ | ⟨a, rest, hp, hcase⟩
  · exact .inl (by simp [hs])
  · rcases hcase with ⟨w, m, l, rfl, hd, hs⟩ | ⟨w, m, l, rfl, hd, hs⟩ | ⟨_, hs⟩ | ⟨_, hs⟩ | ⟨_, hs⟩ |
      ⟨cut, rfl, hs⟩
    · exact .inr (.inl ⟨w, rest, m, l, hp, hd, by simp [hs]⟩)
    · exact .inr (.inr (.inl ⟨w, rest, m, l, hp, hd, by simp [hs]⟩))
    · exact .inl (by simp [hs])
    · exact .inl (by simp [hs])
    · exact .inl (by simp [hs])
    · exact .inr (.inr (.inr ⟨cut, rest, hp, by simp [hs]⟩))

/-- A step of this hardware's machine with an action pending performs it and takes it off the list. -/
theorem step_pending {s : State} {a : HostAction} {rest : List HostAction}
    (h : s.pending = a :: rest) :
    step s = answer (performAt a { s.toStateAt with pending := rest }) := by
  rw [step_eq, stepAt_pending h]

section Twice
variable {f : Format} (m l : Byte) (r : Regs f)

/-- `RAW2MS2` as one update of the registers (10_state.md R36). -/
theorem raw2ms2Regs_eq :
    raw2ms2Regs f m l r = { r with amt := sxu m l, facc := facc3 f (sxu m l), fv := 1#1 } := rfl

/-- `RAW2MMS2` as one update of the registers (10_state.md R36). -/
theorem raw2mms2Regs_eq :
    raw2mms2Regs m l r =
      { r with amt := sxu m l, prod := prodOf (sxu m l), ires := iresOf (sxu m l), iv := 1#1 } := rfl

theorem raw2ms2Regs_twice : raw2ms2Regs f m l (raw2ms2Regs f m l r) = raw2ms2Regs f m l r := by
  simp only [raw2ms2Regs_eq]

theorem raw2mms2Regs_twice : raw2mms2Regs m l (raw2mms2Regs m l r) = raw2mms2Regs m l r := by
  simp only [raw2mms2Regs_eq]

end Twice

end Sys2Proof.Machine

namespace Sys2Proof.Proofs
open Sys2Proof.Machine

/-- Settles O58: this hardware's step is the step at its format, and every action of the host keeps the
invariant. -/
theorem stepKeepsInv : Obligations.StepKeepsInv := by
  refine ⟨fun s t hs hst => ?_, fun _ _ hs => hs.stepAt⟩
  rw [step_next hst]
  exact StateAt.Inv.stepAt hs

/-- Settles O54, by induction on the length of the run. -/
theorem hiddenBitsReachNothing : Obligations.HiddenBitsReachNothing :=
  fun _ _ _ h => ⟨h.stepAt, fun k => (h.runAt k).readings⟩

/-- Settles O55, by the four things a step can do to the valid bits. -/
theorem validBitsClearedOnlyByReset : Obligations.ValidBitsClearedOnlyByReset := by
  intro s t hst
  rw [step_next hst]
  rcases stepAt_validBits s.toStateAt with ⟨hfv, hiv⟩ | ⟨w, rest, m, l, hp, hd, hfv, hiv⟩ |
    ⟨w, rest, m, l, hp, hd, hfv, hiv⟩ | ⟨cut, rest, hp, hfv, hiv⟩
  · simp [hfv, hiv, bit_not_one_and_zero, bit_not_zero_and_one]
  · refine ⟨?_, fun _ => ⟨w, rest, m, l, hp, hd⟩, ?_⟩ <;>
      simp [hfv, hiv, bit_not_one_and_zero, bit_not_zero_and_one]
  · refine ⟨?_, ?_, fun _ => ⟨w, rest, m, l, hp, hd⟩⟩ <;>
      simp [hfv, hiv, bit_not_one_and_zero, bit_not_zero_and_one]
  · exact ⟨fun _ => ⟨cut, rest, hp⟩, by simp [hfv], by simp [hiv]⟩

/-- Settles O42, by the register update of each command. -/
theorem commandFrames : Obligations.CommandFrames := by
  intro m l s
  exact ⟨⟨_, exec_eq (.raw2ms2 m l) s, rfl, rfl, rfl, rfl, rfl, rfl⟩,
    ⟨_, exec_eq (.raw2mms2 m l) s, rfl, rfl, rfl, rfl, rfl, rfl⟩⟩

/-- Settles O45: the valid bits are 0, and every view asks for one. -/
theorem resetValues : Obligations.ResetValues :=
  ⟨⟨Regs.reset_fv _, Regs.reset_iv _, rfl, Regs.reset_heldAmt, Regs.reset_heldFacc,
      Regs.reset_heldProd, Regs.reset_heldIres⟩,
    fun f => ⟨Regs.reset_fv f, Regs.reset_iv f, Regs.reset_heldAmt, Regs.reset_heldFacc,
      Regs.reset_heldProd, Regs.reset_heldIres⟩⟩

/-- Settles O48: an allowed read is performed as its law says. -/
theorem hostReadsReturnAndKeep : Obligations.HostReadsReturnAndKeep := by
  refine ⟨fun s rest hp => ?_, fun s rest hp hv => ?_, fun s rest hp hv => ?_⟩
  · exact (step_pending hp).trans (congrArg answer (readStatusAt_eq _))
  · exact (step_pending hp).trans (congrArg answer (readFaccAt_valid _ hv))
  · exact (step_pending hp).trans (congrArg answer (readIresAt_valid _ hv))

/-- Settles O52: what each command writes names its two bytes alone, and the other kind writes other result
registers. -/
theorem commandsForgetHistory : Obligations.CommandsForgetHistory := by
  intro f m l m' l' r r'
  refine ⟨?_, ?_, raw2ms2Regs_twice m l r, raw2mms2Regs_twice m l r, ?_, ?_, ?_⟩ <;> simp

/-- Settles O57: the valid bits are 0 and no reading was taken, at every format, so at this hardware's too. -/
theorem resetMeetsInv : Obligations.ResetMeetsInv := ⟨StateAt.reset_inv _, StateAt.reset_inv⟩

end Sys2Proof.Proofs
end

section
/-!
PROOFS. What a step of this hardware's machine is for each thing it can find on the host's list: nothing, a
command word, or a word of the opcode table that the host presents next (20_memory.md R47).
-/

namespace Sys2Proof.Machine

section PresentedWord
variable {s : State}

/-- With nothing pending the unit is idle (60_exceptions.md R143). -/
theorem step_idle (h : s.pending = []) : step s = .next s := by
  rw [step_eq, stepAt_idle h]
  rfl

/-- A presented word is decoded and executed whole, and is then off the list (20_memory.md R47). -/
theorem step_present {w : CommandWord} {rest : List HostAction} (h : s.pending = .present w :: rest) :
    step s = exec (decode w) { s with pending := rest } := by
  rw [step_pending h, exec_eq]
  rfl

/-- A word put ahead of the host's list is executed on the state without it. -/
theorem step_presentNext (s : State) (w : CommandWord) : step (presentNext s w) = exec (decode w) s :=
  step_present (presentNext_pending s w)

end PresentedWord

/-- Where the decoder reads an instruction from a word of the opcode table, placing that word presents a
command word that decodes to it (log entry 6). -/
theorem withFetchWord_of_decodeTableWord {nbits w : Nat} {i : Instr}
    (h : decodeTableWord nbits w = some i) (s : State) :
    ∃ c, decode c = i ∧ s.withFetchWord nbits w = presentNext s c := by
  obtain ⟨c, hc, hi⟩ := Option.map_eq_some_iff.mp h
  refine ⟨c, hi, ?_⟩
  unfold State.withFetchWord
  rw [hc]

end Sys2Proof.Machine

namespace Sys2Proof.Proofs
open Sys2Proof.Machine

/-- Settles O47: a placed table word is a presented command word, and a presented word is executed. -/
theorem stepRunsDecodedCommand : Obligations.StepRunsDecodedCommand := by
  refine ⟨fun s w rest hp => step_present hp, fun s nbits w i hw => ?_, fun s hp => step_idle hp⟩
  obtain ⟨c, rfl, hplaced⟩ := withFetchWord_of_decodeTableWord hw s
  rw [hplaced, step_presentNext]

end Sys2Proof.Proofs
end

section
/-!
PROOFS. The command word: its three fields, decoding and encoding as inverses, the numbers that are command
words, and the operands a written command may have (30_encoding.md).
-/

namespace Sys2Proof.Machine

/-! ### The fields of a command word (30_encoding.md R55, R56) -/

/-- A command is its operation and its two bytes (30_encoding.md R65: the triples). -/
theorem instr_eq_of_fields {i j : Instr} (hop : i.op = j.op) (hmsb : i.msb = j.msb)
    (hlsb : i.lsb = j.lsb) : i = j := by
  have kindsDiffer : 0#1 ≠ 1#1 := by decide
  cases i with
  | raw2ms2 m l =>
    cases j with
    | raw2ms2 m' l' => exact congrArg₂ Instr.raw2ms2 hmsb hlsb
    | raw2mms2 m' l' => exact absurd hop kindsDiffer
  | raw2mms2 m l =>
    cases j with
    | raw2ms2 m' l' => exact absurd hop kindsDiffer.symm
    | raw2mms2 m' l' => exact congrArg₂ Instr.raw2mms2 hmsb hlsb

section Fields
variable (i : Instr) (w : CommandWord)

/-- `encode(op, m, l) = {op, m, l}` whatever the operation (30_encoding.md R65). -/
theorem encode_eq_joined : encode i = i.op ++ i.msb ++ i.lsb := by cases i <;> rfl

@[simp] theorem encode_opField : (encode i).extractLsb' 16 1 = i.op := by
  rw [encode_eq_joined, joined_top]

@[simp] theorem encode_msbField : (encode i).extractLsb' 8 8 = i.msb := by
  rw [encode_eq_joined]
  exact (BitVec.extractLsb'_append_eq_of_le (by decide)).trans BitVec.extractLsb'_append_eq_right

@[simp] theorem encode_lsbField : (encode i).extractLsb' 0 8 = i.lsb := by
  rw [encode_eq_joined]
  exact BitVec.extractLsb'_append_eq_right

@[simp] theorem encode_rawField : (encode i).extractLsb' 0 16 = rawWord i.msb i.lsb := by
  rw [encode_eq_joined, joined_low]

/-- A command word as a number: `OP` above the document's `raw`. -/
theorem encode_toNat : (encode i).toNat = i.op.toNat * 0x10000 + (rawWord i.msb i.lsb).toNat := by
  rw [encode_eq_joined, joined_toNat, rawWord_toNat, Nat.add_assoc]

/-- A clear bit 16 is `RAW2MS2` (30_encoding.md R57). -/
theorem decode_of_bit_clear {w : CommandWord} (h : w.getLsbD 16 = false) :
    decode w = .raw2ms2 (w.extractLsb' 8 8) (w.extractLsb' 0 8) :=
  if_neg (Bool.eq_false_iff.mp h)

/-- A set bit 16 is `RAW2MMS2` (30_encoding.md R57). -/
theorem decode_of_bit_set {w : CommandWord} (h : w.getLsbD 16 = true) :
    decode w = .raw2mms2 (w.extractLsb' 8 8) (w.extractLsb' 0 8) :=
  if_pos h

@[simp] theorem decode_op : (decode w).op = w.extractLsb' 16 1 := by
  have hbit := BitVec.getLsbD_eq_extractLsb' w 16
  rcases BitVec.eq_zero_or_eq_one (w.extractLsb' 16 1) with h | h <;> rw [h] at hbit ⊢
  · rw [decode_of_bit_clear hbit, Instr.op]
  · rw [decode_of_bit_set hbit, Instr.op]

@[simp] theorem decode_msb : (decode w).msb = w.extractLsb' 8 8 := by
  cases h : w.getLsbD 16
  · rw [decode_of_bit_clear h, Instr.msb]
  · rw [decode_of_bit_set h, Instr.msb]

@[simp] theorem decode_lsb : (decode w).lsb = w.extractLsb' 0 8 := by
  cases h : w.getLsbD 16
  · rw [decode_of_bit_clear h, Instr.lsb]
  · rw [decode_of_bit_set h, Instr.lsb]

/-- A word is its three fields joined. -/
theorem joined_fields :
    (w.extractLsb' 16 1 ++ w.extractLsb' 8 8 ++ w.extractLsb' 0 8 : BitVec 17) = w := by
  have top : w.extractLsb' 16 1 ++ w.extractLsb' 8 8 = w.extractLsb' 8 9 :=
    BitVec.extractLsb'_append_extractLsb'_eq_extractLsb' rfl
  rw [top]
  exact BitVec.extractLsb'_append_extractLsb' (x := w) (w := 9) (len := 8)

/-- Decoding takes back what encoding wrote, field by field. -/
@[simp] theorem decode_encode : decode (encode i) = i :=
  instr_eq_of_fields (by simp) (by simp) (by simp)

/-- Encoding joins the fields decoding took apart. -/
@[simp] theorem encode_decode : encode (decode w) = w := by
  rw [encode_eq_joined, decode_op, decode_msb, decode_lsb, joined_fields]

end Fields

/-! ### Numbers that are command words (30_encoding.md R58, R60) -/

theorem decodeNumber_of_lt {w : Nat} (h : w < 0x20000) :
    decodeNumber w = .command (decode (BitVec.ofNat 17 w)) := by
  simp [decodeNumber, commandWord?, WellFormed.commandNumber, h]

theorem decodeNumber_of_le {w : Nat} (h : 0x20000 ≤ w) :
    decodeNumber w = .rejected .notACommandWord := by
  simp [decodeNumber, commandWord?, WellFormed.commandNumber, Nat.not_lt.mpr h]

/-! ### Operands of a written command (30_encoding.md R63, R64) -/

/-- Two bytes in range are a command's operands. -/
theorem makeBytes_of_le {m l : Nat} (hm : m ≤ 255) (hl : l ≤ 255) (milli : Bool) :
    makeBytes milli m l = .command (if milli then .raw2mms2 (BitVec.ofNat 8 m) (BitVec.ofNat 8 l)
      else .raw2ms2 (BitVec.ofNat 8 m) (BitVec.ofNat 8 l)) :=
  if_pos (by simp [WellFormed.operand, hm, hl])

/-- One operand above a byte makes the line an error. -/
theorem makeBytes_of_lt {m l : Nat} (h : 255 < m ∨ 255 < l) (milli : Bool) :
    makeBytes milli m l = .error .outOfRange :=
  if_neg fun inRange => by
    obtain ⟨hm, hl⟩ : m ≤ 255 ∧ l ≤ 255 := by simpa [WellFormed.operand] using inRange
    omega

/-- An operand of 16 bits is that of a `.W` form. -/
theorem makeWord_of_le {raw : Nat} (h : raw ≤ 65535) (milli : Bool) :
    makeWord milli raw =
      .command (if milli then raw2mms2W (BitVec.ofNat 16 raw) else raw2ms2W (BitVec.ofNat 16 raw)) :=
  if_pos (decide_eq_true h)

/-- An operand above 16 bits makes the line an error. -/
theorem makeWord_of_lt {raw : Nat} (h : 65535 < raw) (milli : Bool) :
    makeWord milli raw = .error .outOfRange :=
  if_neg (by simpa [WellFormed.rawOperand] using h)

/-- The two bytes a `.W` form takes from its operand are that operand. -/
theorem rawWord_bytes (raw : Half) :
    rawWord ((raw >>> 8).setWidth 8) ((raw &&& 0xFF#16).setWidth 8) = raw := by
  have mask : raw.toNat &&& 255 = raw.toNat % 256 := Nat.and_two_pow_sub_one_eq_mod raw.toNat 8
  apply BitVec.eq_of_toNat_eq
  simp only [rawWord_toNat, BitVec.toNat_setWidth, BitVec.toNat_ushiftRight, BitVec.toNat_and,
    Nat.shiftRight_eq_div_pow, BitVec.toNat_ofNat, Nat.reducePow, Nat.reduceMod, mask]
  omega

theorem raw2ms2W_op (raw : Half) : (raw2ms2W raw).op = 0#1 := rfl

theorem raw2mms2W_op (raw : Half) : (raw2mms2W raw).op = 1#1 := rfl

theorem raw2ms2W_raw (raw : Half) : rawWord (raw2ms2W raw).msb (raw2ms2W raw).lsb = raw :=
  rawWord_bytes raw

theorem raw2mms2W_raw (raw : Half) : rawWord (raw2mms2W raw).msb (raw2mms2W raw).lsb = raw :=
  rawWord_bytes raw

/-- A `.W` form of `RAW2MS2` is the command word `{0, raw}`. -/
theorem encode_raw2ms2W_toNat (raw : Half) : (encode (raw2ms2W raw)).toNat = raw.toNat := by
  simp [encode_toNat, raw2ms2W_op, raw2ms2W_raw]

/-- A `.W` form of `RAW2MMS2` is the command word `{1, raw}`. -/
theorem encode_raw2mms2W_toNat (raw : Half) : (encode (raw2mms2W raw)).toNat = 0x10000 + raw.toNat := by
  simp [encode_toNat, raw2mms2W_op, raw2mms2W_raw]

/-- No name of the table is hidden by an earlier one: each looks up to the form beside it. -/
theorem asmNames_lookup : ∀ entry ∈ asmNames, asmNames.lookup entry.1 = some entry.2 := by decide

end Sys2Proof.Machine

namespace Sys2Proof.Proofs
open Sys2Proof.Machine

/-- Settles O1: the tested bit chooses the operation, and the fields of a word are its parts. -/
theorem decodeEncodeBijection : Obligations.DecodeEncodeBijection :=
  ⟨fun _ => decode_of_bit_clear, fun _ => decode_of_bit_set, decode_encode, encode_decode⟩

/-- Settles O2: a command word is its three fields joined. -/
theorem commandWordLayout : Obligations.CommandWordLayout := by
  intro i
  refine ⟨encode_opField i, encode_msbField i, encode_lsbField i, encode_rawField i, ?_,
    Nat.le_of_lt_succ (encode i).isLt⟩
  rw [encode_toNat, rawWord_toNat, Nat.add_assoc]

/-- Settles O3: the decoder computes on the seven words. -/
theorem specWordsDecode : Obligations.SpecWordsDecode := by
  unfold Obligations.SpecWordsDecode
  decide

/-- Settles O4: 17 bits hold exactly the numbers below 0x20000. -/
theorem allCommandWordsLegal : Obligations.AllCommandWordsLegal :=
  fun _ => ⟨decodeNumber_of_lt, decodeNumber_of_le⟩

/-- Settles O5: the names stand in the table, and a `.W` form takes its operand apart into the two bytes
that the command word joins again. -/
theorem aliasesAndWordForms : Obligations.AliasesAndWordForms := by
  refine ⟨?_, ?_, ?_, ?_, ?_, ?_, ?_, ?_,
    fun raw => ⟨encode_raw2ms2W_toNat raw, encode_raw2mms2W_toNat raw⟩,
    fun raw => ⟨fun h => ⟨makeWord_of_le h false, makeWord_of_le h true⟩, makeWord_of_lt⟩⟩ <;>
    exact asmNames_lookup (_, _) (by simp [asmNames])

/-- Settles O6: both operands are checked before a command is made. -/
theorem assemblyOperandRange : Obligations.AssemblyOperandRange :=
  fun _ _ => ⟨fun ⟨hm, hl⟩ => ⟨makeBytes_of_le hm hl false, makeBytes_of_le hm hl true⟩, makeBytes_of_lt⟩

end Sys2Proof.Proofs
end

section
/-!
PROOFS. The sign-extension and shift unit: its steps one by one, the four forms of the amount, where it comes
from and what it ignores, and the wrong forms measured against it (40_sxu.md).
-/

namespace Sys2Proof.Machine

/-! ### The four steps (40_sxu.md R70 to R73) -/

/-- Every 16-bit value is `raw` of two bytes (40_sxu.md R70). -/
theorem exists_rawWord_eq (raw : Half) : ∃ m l : Byte, rawWord m l = raw :=
  ⟨_, _, rawWord_bytes raw⟩

section Steps
variable (raw t : Half)

theorem shifted_toNat : (shifted raw).toNat = raw.toNat * 4 % 65536 := by
  rw [shifted, BitVec.toNat_shiftLeft, Nat.shiftLeft_eq]

/-- `t[15:2] = raw[13:0]` (40_sxu.md R71). -/
theorem shifted_high : (shifted raw).extractLsb' 2 14 = field14 raw := by
  apply BitVec.eq_of_toNat_eq
  rw [BitVec.extractLsb'_toNat, shifted_toNat, field14_toNat, Nat.shiftRight_eq_div_pow]
  omega

/-- `t[1:0] = 0` (40_sxu.md R71). -/
theorem shifted_low : (shifted raw).extractLsb' 0 2 = 0#2 := by
  apply BitVec.eq_of_toNat_eq
  rw [BitVec.extractLsb'_toNat, shifted_toNat, Nat.shiftRight_zero, BitVec.toNat_ofNat]
  omega

/-- The sign bit of `t` is `raw[13]` (40_sxu.md R72). -/
theorem shifted_sign : (shifted raw).getLsbD 15 = raw.getLsbD 13 := by
  simp [shifted]

/-- A 16-bit word read as signed: "the same 16 bits" less 65536 times the top one (40_sxu.md R72). -/
theorem half_toInt_eq : t.toInt = t.toNat - (if t.getLsbD 15 then 65536 else 0 : Int) := by
  have top : t.msb = t.getLsbD 15 := BitVec.msb_eq_getLsbD_last t
  rw [BitVec.toInt_eq_msb_cond, top]
  split <;> simp

/-- The arithmetic shift is division rounded down (40_sxu.md R73). -/
theorem amount_toInt : (amount t).toInt = t.toInt / 4 := by
  rw [amount, BitVec.toInt_sshiftRight, Int.shiftRight_eq_div_pow]
  rfl

/-- `t[15:2]` stand below (40_sxu.md R73). -/
theorem amount_low : (amount t).extractLsb' 0 14 = t.extractLsb' 2 14 := by
  ext i hi
  have below : 2 + i < 16 := by omega
  have inWord : ¬ 16 ≤ i := by omega
  simp [amount, BitVec.getLsbD_sshiftRight, below, inWord]

/-- Two copies of `t[15]` enter at the top (40_sxu.md R73). -/
theorem amount_top : (amount t).getLsbD 15 = t.getLsbD 15 ∧ (amount t).getLsbD 14 = t.getLsbD 15 := by
  simp [amount, BitVec.getElem_sshiftRight, BitVec.msb_eq_getLsbD_last]

/-- The division is exact: two zero bits leave (40_sxu.md R73). -/
theorem amount_shifted_mul_four : (amount (shifted raw)).toInt * 4 = (shifted raw).toInt := by
  have ht := shifted_toNat raw
  rw [amount_toInt, half_toInt_eq]
  split <;> omega

end Steps

/-! ### The field and its bytes (40_sxu.md R76) -/

section Field
variable (m l : Byte) (raw : Half)

/-- `raw[13]` says whether the field is at least 8192 (40_sxu.md R78). -/
theorem rawBit13_eq : raw.getLsbD 13 = decide (8192 ≤ raw.toNat % 16384) := by
  rw [← field14_top, field14, BitVec.getLsbD_extractLsb']
  rfl

/-- The field is `{msb[5:0], lsb}` (40_sxu.md R76). -/
theorem rawWord_field : (rawWord m l).toNat % 16384 = m.toNat % 64 * 256 + l.toNat := by
  have hl := l.isLt
  rw [rawWord_toNat]
  omega

/-- The sign bit of the field is `msb[5]` (40_sxu.md R76). -/
theorem rawWord_sign : (rawWord m l).getLsbD 13 = m.getLsbD 5 := by
  rw [rawWord, BitVec.getLsbD_append]
  rfl

/-- `raw AND 0x3FFF` is the field, unsigned (40_sxu.md R79). -/
theorem masked_toNat : (raw &&& 0x3FFF#16).toNat = raw.toNat % 16384 := by
  rw [BitVec.toNat_and]
  exact Nat.and_two_pow_sub_one_eq_mod raw.toNat 14

/-- A logical shift of `t` gives the field, unsigned (40_sxu.md R80). -/
theorem shifted_ushiftRight_toNat : (shifted raw >>> 2).toNat = raw.toNat % 16384 := by
  rw [BitVec.toNat_ushiftRight, shifted_toNat, Nat.shiftRight_eq_div_pow]
  omega

/-- The low 14 bits of the 16-bit negation are the 14-bit negation (40_sxu.md R82). -/
theorem neg_field : (-raw).toNat % 16384 = (16384 - raw.toNat % 16384) % 16384 := by
  have hraw := raw.isLt
  rw [BitVec.toNat_neg]
  omega

/-- In 32 bits nothing leaves at the top, so the two shifts undo each other (40_sxu.md R81). -/
theorem wideShift_toInt : ((raw.setWidth 32 <<< 2).sshiftRight 2).toInt = raw.toNat := by
  have hraw := raw.isLt
  have left : (raw.setWidth 32 <<< 2).toNat = raw.toNat * 4 := by
    rw [BitVec.toNat_shiftLeft, BitVec.toNat_setWidth, Nat.shiftLeft_eq]
    omega
  have signed : (raw.setWidth 32 <<< 2).toInt = raw.toNat * 4 := by
    rw [BitVec.toInt_eq_toNat_of_lt (by omega), left, Nat.cast_mul]
    rfl
  rw [BitVec.toInt_sshiftRight, Int.shiftRight_eq_div_pow, signed]
  exact Int.mul_ediv_cancel _ (by decide)

end Field

/-! ### The amount (40_sxu.md R74, R76) -/

section Sxu
variable (m l m' l' : Byte)

/-- The amount from the field as a number (40_sxu.md R76, R78). -/
theorem sxu_toInt_eq : (sxu m l).toInt = ((rawWord m l).toNat % 16384 : Nat) -
    (if 8192 ≤ (rawWord m l).toNat % 16384 then 16384 else 0 : Int) := by
  rw [sxu_toInt, signed14_eq]

/-- The amount from the field and the bit a test of the sign looks at (40_sxu.md R76). -/
theorem sxu_toInt_eq_bit : (sxu m l).toInt = ((rawWord m l).toNat % 16384 : Nat) -
    (if (rawWord m l).getLsbD 13 then 16384 else 0 : Int) := by
  rw [sxu_toInt_eq, rawBit13_eq]
  simp only [decide_eq_true_eq]

/-- As a word the amount is the field, sign-extended (40_sxu.md R76). -/
theorem sxu_eq_signExtend : sxu m l = (field14 (rawWord m l)).signExtend 16 := by
  apply BitVec.eq_of_toInt_eq
  rw [BitVec.toInt_signExtend_of_le (by decide), sxu_toInt, signed14]

variable {m l m' l'}

/-- Two samples give one amount exactly when their fields are equal: sign extension loses nothing. -/
theorem sxu_eq_iff_field : sxu m l = sxu m' l' ↔ field14 (rawWord m l) = field14 (rawWord m' l') := by
  rw [← BitVec.toInt_inj, sxu_toInt, sxu_toInt, signed14, signed14, BitVec.toInt_inj]

variable (m l) in
/-- `msb[7:6]` are not in the field (40_sxu.md R77). -/
theorem sxu_mask : sxu m l = sxu (m &&& 0x3F#8) l := by
  have mask : (m &&& 0x3F#8).toNat = m.toNat % 64 := by
    rw [BitVec.toNat_and]
    exact Nat.and_two_pow_sub_one_eq_mod m.toNat 6
  apply sxu_eq_iff_field.mpr
  apply BitVec.eq_of_toNat_eq
  rw [field14_toNat, field14_toNat, rawWord_field, rawWord_field, mask, Nat.mod_mod]

/-- Every amount in range is the amount of its own two bytes (40_sxu.md R74). -/
theorem sxu_of_inRange {a : Half} (ha : inRange a) (h : rawWord m l = a) : sxu m l = a := by
  obtain ⟨low, high⟩ := ha
  have hnat := half_toInt_eq a
  have hlt := a.isLt
  apply BitVec.eq_of_toInt_eq
  rw [sxu_toInt_eq, h]
  split at hnat <;> split <;> omega

end Sxu

/-! ### Which words have one field (40_sxu.md R77) -/

section SameField
variable {a b d : Half}

/-- A word whose field is 0 has its two top bits alone. -/
theorem field14_eq_zero_iff :
    field14 d = 0#14 ↔ d = 0x0000#16 ∨ d = 0x4000#16 ∨ d = 0x8000#16 ∨ d = 0xC000#16 := by
  have hd := d.isLt
  simp only [BitVec.toNat_eq, field14_toNat, BitVec.toNat_ofNat, Nat.reducePow, Nat.reduceMod]
  omega

theorem field14_xor : field14 (a ^^^ b) = field14 a ^^^ field14 b := BitVec.extractLsb'_xor

/-- `b` is `a` changed in the bits of `d` exactly when `d` is where they differ. -/
theorem eq_xor_iff : b = a ^^^ d ↔ a ^^^ b = d := by
  constructor
  · rintro rfl
    rw [← BitVec.xor_assoc, BitVec.xor_self, BitVec.zero_xor]
  · rintro rfl
    rw [← BitVec.xor_assoc, BitVec.xor_self, BitVec.zero_xor]

/-- Two words have one field exactly when they differ in the two top bits alone. -/
theorem field14_eq_iff : field14 a = field14 b ↔
    b = a ∨ b = a ^^^ 0x4000#16 ∨ b = a ^^^ 0x8000#16 ∨ b = a ^^^ 0xC000#16 := by
  have differ : field14 a = field14 b ↔ field14 (a ^^^ b) = 0#14 := by
    rw [field14_xor, BitVec.xor_eq_zero_iff]
  have same : b = a ↔ a ^^^ b = 0x0000#16 := by
    rw [BitVec.xor_eq_zero_iff, eq_comm]
  rw [differ, field14_eq_zero_iff, same, eq_xor_iff, eq_xor_iff, eq_xor_iff]

end SameField

end Sys2Proof.Machine

namespace Sys2Proof.Proofs
open Sys2Proof.Machine

/-- Settles O7: each step by its law, the range of `t` from that of the amount. -/
theorem sxuStepsAsStated : Obligations.SxuStepsAsStated := by
  refine ⟨rawWord_toNat, exists_rawWord_eq, fun raw => ?_, fun t => ?_, by decide⟩
  · have exact4 := amount_shifted_mul_four raw
    have signed := half_toInt_eq (shifted raw)
    rw [shifted_sign] at signed
    have range : inRange (amount (shifted raw)) := by
      obtain ⟨m, l, rfl⟩ := exists_rawWord_eq raw
      exact sxu_inRange m l
    obtain ⟨low, high⟩ := range
    exact ⟨shifted_toNat raw, shifted_high raw, shifted_low raw, signed, shifted_sign raw,
      by omega, by omega, exact4⟩
  · obtain ⟨h15, h14⟩ := amount_top t
    refine ⟨?_, h15, h14, amount_low t⟩
    rw [amount_toInt, Int.fdiv_eq_ediv_of_nonneg _ (by decide)]

/-- Settles O8: the amount is the field, sign-extended, and the field is read off the two bytes. -/
theorem sxuIsSignedLowFourteen : Obligations.SxuIsSignedLowFourteen :=
  fun m l => ⟨sxu_toInt m l, sxu_toInt_eq_bit m l, sxu_eq_signExtend m l, rawWord_field m l,
    rawWord_sign m l⟩

/-- Settles O9: amounts are equal as their fields are, and fields as the words without their top bits. -/
theorem sxuIgnoresTopTwoBits : Obligations.SxuIgnoresTopTwoBits :=
  ⟨sxu_mask, fun _ _ _ _ => sxu_eq_iff_field.trans field14_eq_iff, by decide, by decide, by decide⟩

/-- Settles O10: each form is `signed_14(raw[13:0])`. -/
theorem sxuFormsAgree : Obligations.SxuFormsAgree := by
  intro m l
  obtain ⟨shift, test, xor⟩ := formsAgree_every_raw (rawWord m l)
  have value := sxu_toInt_eq m l
  refine ⟨shift, shift.trans test.symm, shift.trans xor.symm, fun h => ?_, fun h => ?_,
    shift.trans xor.symm⟩
  · rw [value, if_pos h]
  · rw [value, if_neg (Nat.not_le.mpr h), Int.sub_zero]

/-- Settles O11: an amount in range is the amount of its own two bytes. -/
theorem sxuRangeIsExact : Obligations.SxuRangeIsExact := by
  refine ⟨sxu_inRange, fun a ha => ?_⟩
  obtain ⟨m, l, h⟩ := exists_rawWord_eq a
  exact ⟨m, l, sxu_of_inRange ha h⟩

/-- Settles O12: arithmetic on the field. -/
theorem sxuExtremesAndNegation : Obligations.SxuExtremesAndNegation := by
  refine ⟨fun m l => ?_, fun m l m' l' hneg => ?_, neg_field⟩
  · obtain ⟨low, high⟩ := sxu_inRange m l
    have value := sxu_toInt_eq m l
    refine ⟨low, high, ?_⟩
    split at value <;> omega
  · have value := sxu_toInt_eq m l
    have value' := sxu_toInt_eq m' l'
    split <;> split at value <;> split at value' <;> omega

/-- Settles O13: both wrong forms are the field, unsigned. -/
theorem unsignedFormsAreWrong : Obligations.UnsignedFormsAreWrong := by
  refine ⟨fun m l => ⟨?_, ?_⟩, by decide⟩
  · rw [shifted_ushiftRight_toNat, masked_toNat]
  · rw [masked_toNat, sxu_toInt_eq_bit, Int.sub_add_cancel]

/-- Settles O14: the wide form is `raw`, and the amount is `raw` where `raw` is a field with a clear sign. -/
theorem wideShiftIsWrong : Obligations.WideShiftIsWrong := by
  intro m l
  refine ⟨wideShift_toInt _, ?_⟩
  rw [wideShift_toInt, sxu_toInt_eq]
  split <;> omega

end Sys2Proof.Proofs
end

section
/-!
PROOFS. The layout of an image, and the integer-to-float conversion: its fields, its value and its exactness
(00_scope.md R12, 41_i2f.md).
-/

namespace Sys2Proof.Machine

/-! ### The fields of an image (00_scope.md R12) -/

section Image
variable {f : Format} {s : Bool} {e t : Nat}

/-- Sign, exponent field and fraction field stand side by side in an image. -/
theorem image_toNat (he : e < 2 ^ expBits f) (ht : t < 2 ^ fracBits f) :
    (image f s (e * 2 ^ fracBits f + t)).toNat =
      2 ^ fracBits f * ((if s then 2 ^ expBits f else 0) + e) + t := by
  rw [image, BitVec.toNat_ofNat]
  cases f <;> simp only [fracBits, expBits, Format.flen] at he ht ⊢ <;> split <;> omega

theorem signBit_image (he : e < 2 ^ expBits f) (ht : t < 2 ^ fracBits f) :
    signBit f (image f s (e * 2 ^ fracBits f + t)) = s := by
  rw [signBit, BitVec.msb_eq_decide, image_toNat he ht]
  cases s with
  | true =>
    rw [decide_eq_true_eq, if_pos rfl]
    cases f <;> simp only [fracBits, expBits, Format.flen] <;> omega
  | false =>
    rw [decide_eq_false_iff_not, if_neg Bool.false_ne_true]
    cases f <;> simp only [fracBits, expBits, Format.flen] at he ht ⊢ <;> omega

theorem fracField_image (he : e < 2 ^ expBits f) (ht : t < 2 ^ fracBits f) :
    fracField f (image f s (e * 2 ^ fracBits f + t)) = t := by
  rw [fracField, image_toNat he ht, Nat.mul_add_mod, Nat.mod_eq_of_lt ht]

theorem expField_image (he : e < 2 ^ expBits f) (ht : t < 2 ^ fracBits f) :
    expField f (image f s (e * 2 ^ fracBits f + t)) = e := by
  rw [expField, image_toNat he ht, Nat.mul_add_div (Nat.two_pow_pos _), Nat.div_eq_of_lt ht]
  cases s <;> simp [Nat.mod_eq_of_lt he]

variable (hpos : 1 ≤ e) (hlt : e + 1 < 2 ^ expBits f) (ht : t < 2 ^ fracBits f)
include hpos hlt ht

theorem isNormal_image : isNormal f (image f s (e * 2 ^ fracBits f + t)) = true := by
  rw [isNormal, expField_image (Nat.lt_of_succ_lt hlt) ht]
  simp only [Bool.and_eq_true, decide_eq_true_eq]
  omega

/-- A normal image has the hidden bit above its fraction field. -/
theorem significand_image :
    significand f (image f s (e * 2 ^ fracBits f + t)) = 2 ^ fracBits f + t := by
  have notZero : ¬ isZero f (image f s (e * 2 ^ fracBits f + t)) = true := by
    rw [isZero, expField_image (Nat.lt_of_succ_lt hlt) ht]
    simp only [Bool.and_eq_true, decide_eq_true_eq]
    omega
  rw [significand, if_neg notZero, fracField_image (Nat.lt_of_succ_lt hlt) ht]

end Image

/-- An image of all zero bits is a zero. -/
theorem isZero_zero (f : Format) : isZero f 0#f.flen = true := by
  cases f <;> decide

theorem val_zero (f : Format) : val f 0#f.flen = 0 := by
  rw [val, significand, if_pos (isZero_zero f), Nat.cast_zero, mul_zero, zero_mul]

/-! ### The number that is converted (41_i2f.md R86) -/

section Integer
variable {n : Half} {e : Nat}

variable (n) in
/-- The greatest magnitude is that of −32768. -/
theorem natAbs_toInt_le : n.toInt.natAbs ≤ 2 ^ 15 := by
  have low := BitVec.le_toInt n
  have high := BitVec.toInt_lt (x := n)
  omega

/-- A nonzero integer has a highest set bit of its magnitude (41_i2f.md R86). -/
theorem exists_highest_bit (h : n ≠ 0#16) :
    ∃ e, 2 ^ e ≤ n.toInt.natAbs ∧ n.toInt.natAbs < 2 ^ (e + 1) := by
  have nonzero : n.toInt.natAbs ≠ 0 := fun h0 =>
    h (BitVec.eq_of_toInt_eq (Int.natAbs_eq_zero.mp h0))
  exact ⟨_, (Nat.log2_eq_iff nonzero).mp rfl⟩

theorem log2_natAbs_eq (hlow : 2 ^ e ≤ n.toInt.natAbs) (hhigh : n.toInt.natAbs < 2 ^ (e + 1)) :
    n.toInt.natAbs ≠ 0 ∧ n.toInt.natAbs.log2 = e := by
  have nonzero : n.toInt.natAbs ≠ 0 := Nat.ne_zero_of_lt (Nat.lt_of_lt_of_le (Nat.two_pow_pos e) hlow)
  exact ⟨nonzero, (Nat.log2_eq_iff nonzero).mpr ⟨hlow, hhigh⟩⟩

theorem highest_bit_le (hlow : 2 ^ e ≤ n.toInt.natAbs) : e ≤ 15 :=
  (Nat.pow_le_pow_iff_right (by decide)).mp (hlow.trans (natAbs_toInt_le n))

/-- The magnitude of an amount is at most 8192 (41_i2f.md R88). -/
theorem highest_bit_le_of_inRange (hn : inRange n) (hlow : 2 ^ e ≤ n.toInt.natAbs) : e ≤ 13 := by
  obtain ⟨low, high⟩ := hn
  have atMost : n.toInt.natAbs ≤ 2 ^ 13 := by omega
  exact (Nat.pow_le_pow_iff_right (by decide)).mp (hlow.trans atMost)

/-- The sign and the magnitude make the number. -/
theorem sign_mul_natAbs : (if n.msb then -1 else 1) * (n.toInt.natAbs : ℚ) = n.toInt := by
  rw [BitVec.msb_eq_toInt, Nat.cast_natAbs, Int.cast_abs]
  by_cases h : n.toInt < 0
  · simp [h, abs_of_neg (Int.cast_lt_zero.mpr h)]
  · simp [h, abs_of_nonneg (Int.cast_nonneg (not_lt.mp h))]

end Integer

/-! ### The fraction field (41_i2f.md R87) -/

section Fraction
variable {f : Format} {a e : Nat} (hlow : 2 ^ e ≤ a) (he : e ≤ fracBits f)
include hlow he

/-- The magnitude moved up to the top of the significand is the hidden bit and the fraction field. -/
theorem hiddenBit_add_fraction :
    2 ^ fracBits f + (a - 2 ^ e) * 2 ^ (fracBits f - e) = a * 2 ^ (fracBits f - e) := by
  rw [← Nat.add_sub_of_le he, Nat.add_sub_cancel_left, Nat.pow_add, ← Nat.add_mul, Nat.add_sub_of_le hlow]

theorem fraction_lt (hhigh : a < 2 ^ (e + 1)) :
    (a - 2 ^ e) * 2 ^ (fracBits f - e) < 2 ^ fracBits f :=
  calc (a - 2 ^ e) * 2 ^ (fracBits f - e)
    _ < 2 ^ e * 2 ^ (fracBits f - e) := Nat.mul_lt_mul_of_pos_right (by omega) (Nat.two_pow_pos _)
    _ = 2 ^ fracBits f := by rw [← Nat.pow_add, Nat.add_sub_of_le he]

end Fraction

/-! ### The conversion -/

/-- Zero converts to `+0`, the image of all zero bits (41_i2f.md R87). -/
theorem i2f_zero (f : Format) : i2f f 0#16 = 0#f.flen := by
  simp [i2f, image]

/-- `rnd` of a number whose significand fits loses no bit (00_scope.md R12). -/
theorem rnd_of_log2_le {f : Format} {m e : Nat} {x : Int} (s : Bool) (hm : m ≠ 0)
    (hfit : m.log2 ≤ fracBits f) (he : x + m.log2 + bias f = e) (hpos : 1 ≤ e)
    (hlt : e + 1 < 2 ^ expBits f) :
    rnd f s m x =
      some (image f s (e * 2 ^ fracBits f + (m - 2 ^ m.log2) * 2 ^ (fracBits f - m.log2))) := by
  obtain ⟨low, high⟩ := (Nat.log2_eq_iff hm).mp rfl
  have fraction : roundSignificand f m - 2 ^ fracBits f =
      (m - 2 ^ m.log2) * 2 ^ (fracBits f - m.log2) := by
    rw [roundSignificand, if_pos hfit, ← hiddenBit_add_fraction low hfit, Nat.add_sub_cancel_left]
  have fits : e * 2 ^ fracBits f + (m - 2 ^ m.log2) * 2 ^ (fracBits f - m.log2) <
      (2 ^ expBits f - 1) * 2 ^ fracBits f :=
    calc e * 2 ^ fracBits f + (m - 2 ^ m.log2) * 2 ^ (fracBits f - m.log2)
      _ < e * 2 ^ fracBits f + 2 ^ fracBits f := Nat.add_lt_add_left (fraction_lt low hfit high) _
      _ = (e + 1) * 2 ^ fracBits f := (Nat.succ_mul _ _).symm
      _ ≤ (2 ^ expBits f - 1) * 2 ^ fracBits f := Nat.mul_le_mul_right _ (Nat.le_sub_one_of_lt hlt)
  simp only [rnd, if_neg hm, he, Int.toNat_natCast, fraction]
  exact if_pos ⟨Int.ofNat_le.mpr hpos, fits⟩

section Conversion
variable {n : Half} {e : Nat} (f : Format)

/-- Every exponent of a 16-bit integer is one of a normal number, in both formats (41_i2f.md R86). -/
theorem exponent_fits (he : e ≤ 15) :
    e ≤ fracBits f ∧ 1 ≤ e + bias f ∧ e + bias f + 1 < 2 ^ expBits f := by
  cases f <;> simp only [fracBits, expBits, bias] <;> omega

variable (hlow : 2 ^ e ≤ n.toInt.natAbs) (hhigh : n.toInt.natAbs < 2 ^ (e + 1))
include hlow hhigh

/-- A nonzero integer converts to sign, exponent field and fraction field (41_i2f.md R87). -/
theorem i2f_of_bounds : i2f f n = image f n.msb
    ((e + bias f) * 2 ^ fracBits f + (n.toInt.natAbs - 2 ^ e) * 2 ^ (fracBits f - e)) := by
  obtain ⟨nonzero, rfl⟩ := log2_natAbs_eq hlow hhigh
  simp only [i2f, if_neg nonzero]

theorem fields_i2f :
    signBit f (i2f f n) = n.msb ∧ expField f (i2f f n) = e + bias f ∧
    fracField f (i2f f n) = (n.toInt.natAbs - 2 ^ e) * 2 ^ (fracBits f - e) := by
  obtain ⟨hfit, -, hlt⟩ := exponent_fits f (highest_bit_le hlow)
  have he := Nat.lt_of_succ_lt hlt
  have ht := fraction_lt hlow hfit hhigh
  rw [i2f_of_bounds f hlow hhigh]
  exact ⟨signBit_image he ht, expField_image he ht, fracField_image he ht⟩

theorem isNormal_i2f : isNormal f (i2f f n) = true := by
  obtain ⟨hfit, hpos, hlt⟩ := exponent_fits f (highest_bit_le hlow)
  rw [i2f_of_bounds f hlow hhigh]
  exact isNormal_image hpos hlt (fraction_lt hlow hfit hhigh)

/-- The significand holds every bit of the magnitude (41_i2f.md R86). -/
theorem significand_i2f : significand f (i2f f n) = n.toInt.natAbs * 2 ^ (fracBits f - e) := by
  obtain ⟨hfit, hpos, hlt⟩ := exponent_fits f (highest_bit_le hlow)
  rw [i2f_of_bounds f hlow hhigh, significand_image hpos hlt (fraction_lt hlow hfit hhigh),
    hiddenBit_add_fraction hlow hfit]

theorem val_i2f_of_bounds : val f (i2f f n) = n.toInt := by
  obtain ⟨hfit, -, -⟩ := exponent_fits f (highest_bit_le hlow)
  obtain ⟨sign, exponent, -⟩ := fields_i2f f hlow hhigh
  have scaled : scale f (i2f f n) = -((fracBits f - e : Nat) : Int) := by
    rw [scale, exponent]
    omega
  rw [val, sign, significand_i2f f hlow hhigh, scaled, ← sign_mul_natAbs, mul_assoc, Nat.cast_mul,
    mul_assoc, zpow_neg, zpow_natCast, Nat.cast_pow, Nat.cast_ofNat,
    mul_inv_cancel₀ (pow_ne_zero _ two_ne_zero), mul_one]

theorem rnd_toInt_of_bounds : rnd f n.msb n.toInt.natAbs 0 = some (i2f f n) := by
  obtain ⟨hfit, hpos, hlt⟩ := exponent_fits f (highest_bit_le hlow)
  rw [i2f_of_bounds f hlow hhigh]
  obtain ⟨nonzero, rfl⟩ := log2_natAbs_eq hlow hhigh
  exact rnd_of_log2_le n.msb nonzero hfit (by omega) hpos hlt

end Conversion

/-- The converter's answer is an operand of the multiplier (42_fmac.md R96). -/
theorem isOperand_i2f (f : Format) (n : Half) : isOperand f (i2f f n) = true := by
  by_cases h : n = 0#16
  · rw [h, i2f_zero, isOperand, isZero_zero, Bool.or_true]
  · obtain ⟨e, hlow, hhigh⟩ := exists_highest_bit h
    rw [isOperand, isNormal_i2f f hlow hhigh, Bool.true_or]

/-- The conversion is exact (41_i2f.md R86). -/
theorem val_i2f (f : Format) (n : Half) : val f (i2f f n) = n.toInt := by
  by_cases h : n = 0#16
  · rw [h, i2f_zero, val_zero, BitVec.toInt_zero, Int.cast_zero]
  · obtain ⟨e, hlow, hhigh⟩ := exists_highest_bit h
    exact val_i2f_of_bounds f hlow hhigh

/-- Rounding the integer gives the image the converter gives (41_i2f.md R86). -/
theorem rnd_toInt (f : Format) (n : Half) : rnd f n.msb n.toInt.natAbs 0 = some (i2f f n) := by
  by_cases h : n = 0#16
  · rw [h]
    rfl
  · obtain ⟨e, hlow, hhigh⟩ := exists_highest_bit h
    exact rnd_toInt_of_bounds f hlow hhigh

/-- Below the top 13 fraction bits of a converted amount nothing is set: its exponent is at most 13
(41_i2f.md R88). -/
theorem fracField_i2f_amount (f : Format) {n : Half} (hn : inRange n) :
    fracField f (i2f f n) % 2 ^ (fracBits f - 13) = 0 := by
  by_cases h : n = 0#16
  · rw [h, i2f_zero, fracField, BitVec.toNat_ofNat, Nat.zero_mod, Nat.zero_mod, Nat.zero_mod]
  · obtain ⟨e, hlow, hhigh⟩ := exists_highest_bit h
    obtain ⟨-, -, fraction⟩ := fields_i2f f hlow hhigh
    have he := highest_bit_le_of_inRange hn hlow
    rw [fraction]
    exact Nat.mod_eq_zero_of_dvd ((Nat.pow_dvd_pow 2 (by omega)).mul_left _)

end Sys2Proof.Machine

namespace Sys2Proof.Proofs
open Sys2Proof.Machine

/-- Settles O15: the significand has room for all 16 bits, so nothing is rounded away. -/
theorem conversionIsExact : Obligations.ConversionIsExact :=
  fun f n => ⟨isOperand_i2f f n, val_i2f f n, rnd_toInt f n⟩

/-- Settles O16: the fields of the image, and for an amount the zeros below its exponent. -/
theorem conversionImage : Obligations.ConversionImage := by
  refine ⟨i2f_zero, fun f n e hlow hhigh => ?_, fun f _ => fracField_i2f_amount f, by decide⟩
  rw [← BitVec.msb_eq_toInt]
  exact fields_i2f f hlow hhigh

end Sys2Proof.Proofs
end

section
/-!
PROOFS. The value of an image, rounding to nearest with ties to even on a grid, and what `rnd` answers
(00_scope.md R12, 42_fmac.md R95).
-/

namespace Sys2Proof.Machine

/-! ### Sign and magnitude of an image -/

/-- The sign of a number as a factor. -/
def signOf (s : Bool) : ℚ := if s then -1 else 1

/-- The magnitude an image stands for. -/
def absVal (f : Format) (a : BitVec f.flen) : ℚ := (significand f a : ℚ) * 2 ^ scale f a

@[simp] theorem signOf_false : signOf false = 1 := rfl
@[simp] theorem signOf_true : signOf true = -1 := rfl

section SignMagnitude
variable (f : Format) (a : BitVec f.flen) (s t : Bool)

theorem val_eq : val f a = signOf (signBit f a) * absVal f a := mul_assoc _ _ _

theorem signOf_mul_self : signOf s * signOf s = 1 := by
  cases s <;> simp [signOf]

theorem abs_signOf : |signOf s| = 1 := by
  cases s <;> simp [signOf]

theorem signOf_xor : signOf (s ^^ t) = signOf s * signOf t := by
  cases s <;> cases t <;> simp [signOf]

theorem absVal_nonneg : 0 ≤ absVal f a :=
  mul_nonneg (Nat.cast_nonneg _) (zpow_nonneg zero_le_two _)

theorem abs_val : |val f a| = absVal f a := by
  rw [val_eq, abs_mul, abs_signOf, one_mul, abs_of_nonneg (absVal_nonneg f a)]

/-- A common sign does not matter to a distance. -/
theorem abs_sub_signOf_mul (p q : ℚ) : |p - signOf s * q| = |signOf s * p - q| := by
  have h : p - signOf s * q = signOf s * (signOf s * p - q) := by
    rw [mul_sub, ← mul_assoc, signOf_mul_self, one_mul]
  rw [h, abs_mul, abs_signOf, one_mul]

theorem abs_signOf_mul_sub (p q : ℚ) : |signOf s * p - signOf s * q| = |p - q| := by
  rw [← mul_sub, abs_mul, abs_signOf, one_mul]

end SignMagnitude

/-- Twice a power of two is the next one. -/
theorem two_zpow_succ (j : ℤ) : (2 : ℚ) ^ (j + 1) = 2 * 2 ^ j := by
  rw [zpow_add_one₀ two_ne_zero, mul_comm]

/-! ### Images and their fields -/

section Fields
variable (f : Format) (a : BitVec f.flen)

theorem expField_lt : expField f a < 2 ^ expBits f := Nat.mod_lt _ (Nat.two_pow_pos _)

theorem fracField_lt : fracField f a < 2 ^ fracBits f := Nat.mod_lt _ (Nat.two_pow_pos _)

theorem significand_lt : significand f a < 2 ^ (fracBits f + 1) := by
  have h := fracField_lt f a
  rw [significand]
  split <;> omega

/-- An image is made of its three fields (00_scope.md R12). -/
theorem image_fields :
    image f (signBit f a) (expField f a * 2 ^ fracBits f + fracField f a) = a := by
  apply BitVec.eq_of_toNat_eq
  have ha := a.isLt
  rw [image_toNat (expField_lt f a) (fracField_lt f a), signBit, BitVec.msb_eq_decide, expField, fracField]
  cases f <;> simp only [fracBits, expBits, Format.flen, decide_eq_true_eq] at ha ⊢ <;> split <;> omega

end Fields

/-! ### Rounding a natural number (42_fmac.md R95) -/

/-- `m` rounded to the `p` bits of a significand, still standing for an integer of the size of `m`. -/
def roundBits (f : Format) (m : Nat) : Nat :=
  roundEven m (m.log2 - fracBits f) * 2 ^ (m.log2 - fracBits f)

section RoundEven
variable (m k : Nat)

/-- The two answers of `roundEven`: down where the part that is dropped is at most a half, up where it is at
least that, and at a half the one that is even. -/
theorem roundEven_cases :
    (roundEven m k = m / 2 ^ k ∧ 2 * (m % 2 ^ k) ≤ 2 ^ k ∧
      (2 * (m % 2 ^ k) = 2 ^ k → m / 2 ^ k % 2 = 0)) ∨
    (roundEven m k = m / 2 ^ k + 1 ∧ 2 ^ k ≤ 2 * (m % 2 ^ k) ∧
      (2 * (m % 2 ^ k) = 2 ^ k → (m / 2 ^ k + 1) % 2 = 0)) := by
  rw [roundEven]
  split
  · exact .inr ⟨rfl, by omega, by omega⟩
  · exact .inl ⟨rfl, by omega, by omega⟩

/-- The rounded number is at most half a unit away, and at half a unit it is even. -/
theorem roundEven_close :
    2 * |((roundEven m k : ℤ) * 2 ^ k) - m| ≤ 2 ^ k ∧
    (2 * |((roundEven m k : ℤ) * 2 ^ k) - m| = 2 ^ k → roundEven m k % 2 = 0) := by
  have whole : (2 ^ k : ℤ) * (m / 2 ^ k : ℕ) + (m % 2 ^ k : ℕ) = m := mod_cast Nat.div_add_mod m (2 ^ k)
  have below : m % 2 ^ k < 2 ^ k := Nat.mod_lt _ (Nat.two_pow_pos k)
  rcases roundEven_cases m k with ⟨h, hr, heven⟩ | ⟨h, hr, heven⟩
  · have error : ((m / 2 ^ k : ℕ) : ℤ) * 2 ^ k - m = -(m % 2 ^ k : ℕ) := by linarith
    rw [h, error, abs_neg, Nat.abs_cast]
    exact ⟨mod_cast hr, fun tie => heven (mod_cast tie)⟩
  · have error : ((m / 2 ^ k + 1 : ℕ) : ℤ) * 2 ^ k - m = (2 ^ k - m % 2 ^ k : ℕ) := by
      rw [Nat.cast_sub below.le, Nat.cast_pow, Nat.cast_ofNat, Nat.cast_succ]
      linarith
    rw [h, error, Nat.abs_cast]
    refine ⟨mod_cast (by omega : 2 * (2 ^ k - m % 2 ^ k) ≤ 2 ^ k), fun tie => heven ?_⟩
    have tieNat : 2 * (2 ^ k - m % 2 ^ k) = 2 ^ k := mod_cast tie
    omega

/-- Nothing is dropped of a multiple of the unit. -/
theorem roundEven_mul : roundEven (m * 2 ^ k) k = m := by
  have pos := Nat.two_pow_pos k
  rcases roundEven_cases (m * 2 ^ k) k with ⟨h, -, -⟩ | ⟨-, h, -⟩
  · rw [h, Nat.mul_div_cancel _ pos]
  · rw [Nat.mul_mod_left] at h
    omega

/-- A common power of two does not matter. -/
theorem roundEven_mul_mul (j : Nat) : roundEven (m * 2 ^ j) (k + j) = roundEven m k := by
  have pos := Nat.two_pow_pos j
  have quotient : m * 2 ^ j / 2 ^ (k + j) = m / 2 ^ k := by
    rw [Nat.pow_add, Nat.mul_div_mul_right _ _ pos]
  have rest : m * 2 ^ j % 2 ^ (k + j) = m % 2 ^ k * 2 ^ j := by
    rw [Nat.pow_add, Nat.mul_mod_mul_right]
  have half : 2 ^ (k + j) < 2 * (m % 2 ^ k * 2 ^ j) ↔ 2 ^ k < 2 * (m % 2 ^ k) := by
    rw [← Nat.mul_assoc, Nat.pow_add, Nat.mul_lt_mul_right pos]
  have tie : 2 * (m % 2 ^ k * 2 ^ j) = 2 ^ (k + j) ↔ 2 * (m % 2 ^ k) = 2 ^ k := by
    rw [← Nat.mul_assoc, Nat.pow_add, Nat.mul_left_inj pos.ne']
  simp only [roundEven, quotient, rest, half, tie]

end RoundEven

theorem log2_mul_two_pow {m : Nat} (hm : m ≠ 0) (k : Nat) : (m * 2 ^ k).log2 = m.log2 + k := by
  obtain ⟨low, high⟩ := (Nat.log2_eq_iff hm).mp rfl
  have pos := Nat.two_pow_pos k
  rw [Nat.log2_eq_iff (Nat.mul_ne_zero hm pos.ne'), Nat.pow_add, Nat.add_right_comm, Nat.pow_add]
  exact ⟨Nat.mul_le_mul_right _ low, Nat.mul_lt_mul_of_pos_right high pos⟩

section RoundSignificand
variable {f : Format} {m : Nat}

/-- The significand that `rnd` takes is the rounded number moved to `p` bits. -/
theorem roundSignificand_mul (f : Format) (m : Nat) :
    roundSignificand f m * 2 ^ m.log2 = roundBits f m * 2 ^ fracBits f := by
  rw [roundSignificand, roundBits]
  split
  next h =>
    have whole : roundEven m 0 = m := by simpa using roundEven_mul m 0
    rw [Nat.sub_eq_zero_of_le h, whole, Nat.mul_assoc, ← Nat.pow_add, Nat.sub_add_cancel h,
      Nat.pow_zero, Nat.mul_one]
  next h => rw [Nat.mul_assoc, ← Nat.pow_add, Nat.sub_add_cancel (Nat.le_of_not_le h)]

theorem roundSignificand_le (hm : m ≠ 0) :
    2 ^ fracBits f ≤ roundSignificand f m ∧ roundSignificand f m ≤ 2 ^ (fracBits f + 1) := by
  obtain ⟨low, high⟩ := (Nat.log2_eq_iff hm).mp rfl
  rw [roundSignificand]
  split
  next h =>
    have top : 2 ^ fracBits f = 2 ^ m.log2 * 2 ^ (fracBits f - m.log2) := by
      rw [← Nat.pow_add, Nat.add_sub_of_le h]
    rw [Nat.pow_succ', top, ← Nat.mul_assoc, ← Nat.pow_succ']
    exact ⟨Nat.mul_le_mul_right _ low, Nat.mul_le_mul_right _ high.le⟩
  next h =>
    have top : m.log2 = fracBits f + (m.log2 - fracBits f) := by omega
    have quotientLow : 2 ^ fracBits f ≤ m / 2 ^ (m.log2 - fracBits f) := by
      rw [Nat.le_div_iff_mul_le (Nat.two_pow_pos _), ← Nat.pow_add, ← top]
      exact low
    have quotientHigh : m / 2 ^ (m.log2 - fracBits f) < 2 ^ (fracBits f + 1) := by
      rw [Nat.div_lt_iff_lt_mul (Nat.two_pow_pos _), ← Nat.pow_add, Nat.add_right_comm, ← top]
      exact high
    rcases roundEven_cases m (m.log2 - fracBits f) with ⟨hr, -, -⟩ | ⟨hr, -, -⟩ <;> omega

/-- A common power of two does not matter to the significand. -/
theorem roundSignificand_mul_two_pow (hm : m ≠ 0) (k : Nat) :
    roundSignificand f (m * 2 ^ k) = roundSignificand f m := by
  rw [roundSignificand, roundSignificand, log2_mul_two_pow hm]
  by_cases fits : m.log2 + k ≤ fracBits f
  · rw [if_pos fits, if_pos (by omega), Nat.mul_assoc, ← Nat.pow_add]
    congr 2
    omega
  · rw [if_neg fits]
    split
    next h =>
      have exact : m * 2 ^ k = m * 2 ^ (fracBits f - m.log2) * 2 ^ (m.log2 + k - fracBits f) := by
        rw [Nat.mul_assoc, ← Nat.pow_add]
        congr 2
        omega
      rw [exact, roundEven_mul]
    next h =>
      rw [show m.log2 + k - fracBits f = m.log2 - fracBits f + k by omega, roundEven_mul_mul]

/-- The rounded number is at most half a unit in its last place away. -/
theorem roundBits_close (f : Format) (m : Nat) :
    2 * |(roundBits f m : ℤ) - m| ≤ 2 ^ (m.log2 - fracBits f) := by
  rw [roundBits]
  push_cast
  exact (roundEven_close m _).1

/-- A number with room in the significand is not rounded. -/
theorem roundBits_of_log2_le (h : m.log2 ≤ fracBits f) : roundBits f m = m := by
  have whole : roundEven m 0 = m := by simpa using roundEven_mul m 0
  rw [roundBits, Nat.sub_eq_zero_of_le h, whole, Nat.pow_zero, Nat.mul_one]

/-- The significand that `rnd` takes, in units of the last place of `m`, is the rounded number. -/
theorem roundSignificand_mul_zpow (f : Format) (m : Nat) :
    (roundSignificand f m : ℚ) * 2 ^ ((m.log2 : ℤ) - fracBits f) = roundBits f m := by
  have h : (roundSignificand f m : ℚ) * 2 ^ m.log2 = roundBits f m * 2 ^ fracBits f :=
    mod_cast roundSignificand_mul f m
  rw [zpow_sub₀ two_ne_zero, zpow_natCast, zpow_natCast, ← mul_div_assoc, h,
    mul_div_cancel_right₀ _ (pow_ne_zero _ two_ne_zero)]

/-- The rounded number is at most half a unit of the last place of `m` away, and where it is half a unit
away, the significand is even. -/
theorem roundBits_nearest (f : Format) (m : Nat) :
    |(roundBits f m : ℚ) - m| ≤ 2 ^ ((m.log2 : ℤ) - fracBits f) / 2 ∧
    (|(roundBits f m : ℚ) - m| = 2 ^ ((m.log2 : ℤ) - fracBits f) / 2 →
      roundSignificand f m % 2 = 0) := by
  have unit_pos : (0 : ℚ) < 2 ^ ((m.log2 : ℤ) - fracBits f) := zpow_pos two_pos _
  rcases Nat.lt_or_ge (fracBits f) m.log2 with h | h
  · have unit_eq : (2 : ℚ) ^ ((m.log2 : ℤ) - fracBits f) = (2 ^ (m.log2 - fracBits f) : ℤ) := by
      rw [← Nat.cast_sub h.le, zpow_natCast]
      norm_cast
    have close := roundEven_close m (m.log2 - fracBits f)
    rw [roundSignificand, if_neg (Nat.not_le.mpr h), le_div_iff₀ two_pos, eq_div_iff two_ne_zero, unit_eq,
      mul_comm, roundBits]
    exact_mod_cast close
  · rw [roundBits_of_log2_le h, sub_self, abs_zero]
    exact ⟨by positivity, fun tie => absurd tie (by positivity)⟩

/-- The relative error of rounding (00_scope.md R12). -/
theorem roundBits_relative (f : Format) (m : Nat) :
    |(roundBits f m : ℚ) - m| * 2 ^ (fracBits f + 1) ≤ m := by
  rcases eq_or_ne m 0 with rfl | hm
  · rw [roundBits_of_log2_le (by simp), sub_self, abs_zero, zero_mul]
    exact Nat.cast_nonneg 0
  · calc |(roundBits f m : ℚ) - m| * 2 ^ (fracBits f + 1)
      _ ≤ 2 ^ ((m.log2 : ℤ) - fracBits f) / 2 * 2 ^ (fracBits f + 1) :=
        mul_le_mul_of_nonneg_right (roundBits_nearest f m).1 (by positivity)
      _ = 2 ^ m.log2 := by
        rw [zpow_sub₀ two_ne_zero, zpow_natCast, zpow_natCast, pow_succ]
        field_simp
      _ ≤ m := mod_cast Nat.log2_self_le hm

end RoundSignificand

/-! ### What `rnd` answers -/

section Rnd
variable {f : Format} {s : Bool} {m : Nat} {x : ℤ} {r : BitVec f.flen}

theorem rnd_zero (f : Format) (s : Bool) (x : ℤ) : rnd f s 0 x = some (image f s 0) := if_pos rfl

/-- What an answer of `rnd` for a number other than zero is: exponent field and significand joined, below the
images of the special values. -/
theorem rnd_eq_some_iff (hm : m ≠ 0) : rnd f s m x = some r ↔
    ∃ e : Nat, (e : ℤ) = x + m.log2 + bias f ∧ 1 ≤ e ∧
      e * 2 ^ fracBits f + (roundSignificand f m - 2 ^ fracBits f) <
        (2 ^ expBits f - 1) * 2 ^ fracBits f ∧
      image f s (e * 2 ^ fracBits f + (roundSignificand f m - 2 ^ fracBits f)) = r := by
  simp only [rnd, if_neg hm, Option.ite_none_right_eq_some, Option.some.injEq]
  constructor
  · rintro ⟨⟨hpos, hlt⟩, rfl⟩
    exact ⟨_, Int.toNat_of_nonneg (by omega), by omega, hlt, rfl⟩
  · rintro ⟨e, he, hpos, hlt, rfl⟩
    rw [← he, Int.toNat_natCast]
    exact ⟨⟨mod_cast hpos, hlt⟩, rfl⟩

/-- `rnd` rounds a number, not a way to write it: a power of two may stand in either place. -/
theorem rnd_mul_two_pow (f : Format) (s : Bool) (m k : Nat) (x : ℤ) :
    rnd f s (m * 2 ^ k) x = rnd f s m (x + k) := by
  rcases eq_or_ne m 0 with rfl | hm
  · rw [Nat.zero_mul, rnd_zero, rnd_zero]
  · have hmk : m * 2 ^ k ≠ 0 := Nat.mul_ne_zero hm (Nat.two_pow_pos k).ne'
    have exponent : x + ((m.log2 + k : Nat) : ℤ) = x + k + m.log2 := by push_cast; ring
    simp only [rnd, if_neg hm, if_neg hmk, roundSignificand_mul_two_pow hm, log2_mul_two_pow hm, exponent]

/-- `rnd` of equal numbers is equal. -/
theorem rnd_congr {m' : Nat} {x' : ℤ} (h : (m : ℚ) * 2 ^ x = m' * 2 ^ x') :
    rnd f s m x = rnd f s m' x' := by
  wlog hle : x ≤ x' generalizing m m' x x'
  · exact (this h.symm (le_of_not_ge hle)).symm
  obtain ⟨k, rfl⟩ := Int.le.dest hle
  have hm : (m : ℚ) = m' * 2 ^ k := by
    rw [zpow_add₀ two_ne_zero, zpow_natCast, mul_comm (_ ^ x), ← mul_assoc] at h
    exact mul_right_cancel₀ (zpow_ne_zero x two_ne_zero) h
  have hm' : m = m' * 2 ^ k := mod_cast hm
  rw [hm', rnd_mul_two_pow]

/-! The answer's sign, magnitude and last fraction bit -/

theorem absVal_image {e t : Nat} (s : Bool) (hpos : 1 ≤ e) (hlt : e + 1 < 2 ^ expBits f)
    (ht : t < 2 ^ fracBits f) :
    absVal f (image f s (e * 2 ^ fracBits f + t)) =
      (2 ^ fracBits f + t) * 2 ^ ((e : ℤ) - bias f - fracBits f) := by
  rw [absVal, significand_image hpos hlt ht, scale, expField_image (Nat.lt_of_succ_lt hlt) ht]
  norm_cast

/-- The fields of an answer of `rnd`, where a carry out of the significand has run into the exponent. -/
theorem rnd_fields (hm : m ≠ 0) (h : rnd f s m x = some r) :
    ∃ e t : Nat, 1 ≤ e ∧ e + 1 < 2 ^ expBits f ∧ t < 2 ^ fracBits f ∧
      r = image f s (e * 2 ^ fracBits f + t) ∧
      (2 ^ fracBits f + t) * (2 : ℚ) ^ ((e : ℤ) - bias f - fracBits f) = roundBits f m * 2 ^ x ∧
      t % 2 = roundSignificand f m % 2 := by
  obtain ⟨e, he, hpos, hlt, rfl⟩ := (rnd_eq_some_iff hm).mp h
  obtain ⟨low, high⟩ := roundSignificand_le (f := f) hm
  have frac_pos : 2 ∣ 2 ^ fracBits f := dvd_pow_self 2 (by cases f <;> decide)
  have value : (roundSignificand f m : ℚ) * 2 ^ ((e : ℤ) - bias f - fracBits f) =
      roundBits f m * 2 ^ x := by
    rw [← roundSignificand_mul_zpow, mul_assoc, ← zpow_add₀ two_ne_zero, he]
    congr 2
    ring
  rcases high.lt_or_eq with carry | carry
  · refine ⟨e, roundSignificand f m - 2 ^ fracBits f, hpos, ?_, by omega, rfl, ?_, by omega⟩
    · have exponent := Nat.lt_of_mul_lt_mul_right (lt_of_le_of_lt (Nat.le_add_right _ _) hlt)
      omega
    · rw [← value, Nat.cast_sub low, Nat.cast_pow, Nat.cast_ofNat, add_sub_cancel]
  · have moved : e * 2 ^ fracBits f + (roundSignificand f m - 2 ^ fracBits f) =
        (e + 1) * 2 ^ fracBits f := by
      rw [carry, Nat.succ_mul, Nat.pow_succ]
      omega
    rw [moved] at hlt ⊢
    refine ⟨e + 1, 0, by omega, ?_, Nat.two_pow_pos _, rfl, ?_, ?_⟩
    · have exponent := Nat.lt_of_mul_lt_mul_right hlt
      omega
    · have exponent : ((e + 1 : Nat) : ℤ) - bias f - fracBits f = (e : ℤ) - bias f - fracBits f + 1 := by
        push_cast
        ring
      rw [← value, carry, exponent, two_zpow_succ]
      push_cast
      ring
    · omega

theorem isOperand_image {e t : Nat} (s : Bool) (hpos : 1 ≤ e) (hlt : e + 1 < 2 ^ expBits f)
    (ht : t < 2 ^ fracBits f) : isOperand f (image f s (e * 2 ^ fracBits f + t)) = true := by
  rw [isOperand, isNormal_image hpos hlt ht, Bool.true_or]

theorem isZero_image (f : Format) (s : Bool) : isZero f (image f s 0) = true := by
  have hexp := expField_image (f := f) (s := s) (e := 0) (Nat.two_pow_pos _) (Nat.two_pow_pos _)
  have hfrac := fracField_image (f := f) (s := s) (e := 0) (Nat.two_pow_pos _) (Nat.two_pow_pos _)
  rw [Nat.zero_mul, Nat.zero_add] at hexp hfrac
  simp only [isZero, hexp, hfrac, decide_true, Bool.and_self]

theorem signBit_image_zero (f : Format) (s : Bool) : signBit f (image f s 0) = s := by
  have h := signBit_image (f := f) (s := s) (e := 0) (Nat.two_pow_pos _) (Nat.two_pow_pos _)
  rwa [Nat.zero_mul, Nat.zero_add] at h

theorem absVal_of_isZero {a : BitVec f.flen} (h : isZero f a = true) : absVal f a = 0 := by
  rw [absVal, significand, if_pos h, Nat.cast_zero, zero_mul]

theorem roundBits_zero (f : Format) : roundBits f 0 = 0 := roundBits_of_log2_le (by simp)

theorem signBit_of_rnd (h : rnd f s m x = some r) : signBit f r = s := by
  rcases eq_or_ne m 0 with rfl | hm
  · rw [← Option.some.inj ((rnd_zero f s x).symm.trans h), signBit_image_zero]
  · obtain ⟨e, t, -, hlt, ht, rfl, -, -⟩ := rnd_fields hm h
    exact signBit_image (Nat.lt_of_succ_lt hlt) ht

theorem isOperand_of_rnd (h : rnd f s m x = some r) : isOperand f r = true := by
  rcases eq_or_ne m 0 with rfl | hm
  · rw [← Option.some.inj ((rnd_zero f s x).symm.trans h), isOperand, isZero_image, Bool.or_true]
  · obtain ⟨e, t, hpos, hlt, ht, rfl, -, -⟩ := rnd_fields hm h
    exact isOperand_image s hpos hlt ht

/-- The answer stands for the rounded number. -/
theorem absVal_of_rnd (h : rnd f s m x = some r) : absVal f r = roundBits f m * 2 ^ x := by
  rcases eq_or_ne m 0 with rfl | hm
  · rw [← Option.some.inj ((rnd_zero f s x).symm.trans h), absVal_of_isZero (isZero_image f s),
      roundBits_zero, Nat.cast_zero, zero_mul]
  · obtain ⟨e, t, hpos, hlt, ht, rfl, value, -⟩ := rnd_fields hm h
    rw [absVal_image s hpos hlt ht, value]

/-- The relative error of an answer (00_scope.md R12). -/
theorem absVal_of_rnd_relative (h : rnd f s m x = some r) :
    |absVal f r - m * 2 ^ x| * 2 ^ (fracBits f + 1) ≤ m * 2 ^ x := by
  have unit : (0 : ℚ) < 2 ^ x := zpow_pos two_pos x
  rw [absVal_of_rnd h, ← sub_mul, abs_mul, abs_of_pos unit, mul_right_comm]
  exact mul_le_mul_of_nonneg_right (roundBits_relative f m) unit.le

theorem fracField_of_rnd (hm : m ≠ 0) (h : rnd f s m x = some r) :
    fracField f r % 2 = roundSignificand f m % 2 := by
  obtain ⟨e, t, -, hlt, ht, rfl, -, parity⟩ := rnd_fields hm h
  rw [fracField_image (Nat.lt_of_succ_lt hlt) ht, parity]

end Rnd

/-! ### Nearest, ties to even (00_scope.md R12) -/

/-- Among the multiples of a unit `u`, and the numbers below a multiple that is itself at most `q`, the multiple
within half a unit of `q` is nearest, and where another one is as near, it is half a unit away. -/
theorem nearest_on_grid {u q y : ℚ} {R c : ℤ} (hu : 0 < u) (hR : |R * u - q| ≤ u / 2) (hc : c * u ≤ q)
    (hy : (∃ k : ℤ, y = k * u) ∨ y < c * u) :
    |R * u - q| ≤ |y - q| ∧ (|y - q| = |R * u - q| → y ≠ R * u → |R * u - q| = u / 2) := by
  have multiple : ∀ k : ℤ, k ≠ R → u / 2 ≤ |k * u - q| ∧
      (|k * u - q| = |R * u - q| → |R * u - q| = u / 2) := by
    intro k hk
    have apart : (1 : ℚ) ≤ |(k : ℚ) - R| := by
      exact_mod_cast Int.one_le_abs (sub_ne_zero.mpr hk)
    have far : u ≤ |k * u - q| + |R * u - q| :=
      calc u
        _ ≤ |(k : ℚ) - R| * u := le_mul_of_one_le_left hu.le apart
        _ = |((k : ℚ) - R) * u| := by rw [abs_mul, abs_of_pos hu]
        _ = |(k * u - q) - (R * u - q)| := by rw [sub_sub_sub_cancel_right, sub_mul]
        _ ≤ |k * u - q| + |R * u - q| := abs_sub _ _
    exact ⟨by linarith, fun h => by linarith⟩
  have nearest : ∀ k : ℤ, |R * u - q| ≤ |k * u - q| := by
    intro k
    rcases eq_or_ne k R with rfl | hk
    · exact le_rfl
    · exact hR.trans (multiple k hk).1
  rcases hy with ⟨k, rfl⟩ | below
  · refine ⟨nearest k, fun h hne => (multiple k ?_).2 h⟩
    rintro rfl
    exact hne rfl
  · have strict : |R * u - q| < |y - q| :=
      calc |R * u - q|
        _ ≤ |c * u - q| := nearest c
        _ < |y - q| := by
          rw [abs_of_nonpos (by linarith), abs_of_nonpos (by linarith)]
          linarith
    exact ⟨strict.le, fun h => absurd h strict.ne'⟩

section Nearest
variable {f : Format} {s : Bool} {q : ℚ} {r : BitVec f.flen}

/-- A value of the format is a multiple of a unit, or smaller than its least multiple that fills the
significand. -/
theorem absVal_on_grid (b : BitVec f.flen) (j : ℤ) :
    (∃ k : ℕ, absVal f b = k * 2 ^ j) ∨ absVal f b < 2 ^ fracBits f * 2 ^ j := by
  rcases le_or_gt j (scale f b) with h | h
  · obtain ⟨k, hk⟩ := Int.le.dest h
    refine .inl ⟨significand f b * 2 ^ k, ?_⟩
    rw [absVal, ← hk, zpow_add₀ two_ne_zero, zpow_natCast]
    push_cast
    ring
  · right
    have hsig : (significand f b : ℚ) < 2 ^ (fracBits f + 1) := mod_cast significand_lt f b
    calc absVal f b
      _ < 2 ^ (fracBits f + 1) * 2 ^ scale f b := mul_lt_mul_of_pos_right hsig (zpow_pos two_pos _)
      _ = 2 ^ fracBits f * 2 ^ (scale f b + 1) := by rw [two_zpow_succ, pow_succ]; ring
      _ ≤ 2 ^ fracBits f * 2 ^ j := by
        refine mul_le_mul_of_nonneg_left (zpow_le_zpow_right₀ one_le_two h) (by positivity)

/-- An image that stands for `R` units `2^j`, where `q` fills the significand in these units, is nearest to `q`
when `R` is within half a unit and, at half a unit, even. -/
theorem isNearestEven_of_units {R : ℕ} {j : ℤ} (hop : isOperand f r = true) (hsign : signBit f r = s)
    (hval : absVal f r = R * 2 ^ j) (hfill : 2 ^ fracBits f * 2 ^ j ≤ q)
    (hclose : |R * 2 ^ j - q| ≤ 2 ^ j / 2)
    (htie : |R * 2 ^ j - q| = 2 ^ j / 2 → fracField f r % 2 = 0) :
    IsNearestEven f (signOf s * q) r := by
  have unit_pos : (0 : ℚ) < 2 ^ j := zpow_pos two_pos j
  have grid : ∀ b : BitVec f.flen, |R * 2 ^ j - q| ≤ |signOf s * val f b - q| ∧
      (|signOf s * val f b - q| = |R * 2 ^ j - q| → signOf s * val f b ≠ R * 2 ^ j →
        |R * 2 ^ j - q| = 2 ^ j / 2) := by
    intro b
    refine nearest_on_grid (R := R) (c := 2 ^ fracBits f) unit_pos hclose (mod_cast hfill) ?_
    rcases absVal_on_grid b j with ⟨k, hk⟩ | below
    · rw [val_eq, hk]
      cases s <;> cases signBit f b
      · exact .inl ⟨k, by simp [signOf]⟩
      · exact .inl ⟨-k, by simp [signOf]⟩
      · exact .inl ⟨-k, by simp [signOf]⟩
      · exact .inl ⟨k, by simp [signOf]⟩
    · right
      calc signOf s * val f b
        _ ≤ |signOf s * val f b| := le_abs_self _
        _ = absVal f b := by rw [abs_mul, abs_signOf, one_mul, abs_val]
        _ < _ := mod_cast below
  have own : signOf s * val f r = R * 2 ^ j := by
    rw [val_eq, hsign, ← mul_assoc, signOf_mul_self, one_mul, hval]
  refine ⟨hop, fun b _ => ?_, fun b _ hsame hne => htie ((grid b).2 ?_ ?_)⟩
  · rw [abs_sub_signOf_mul, abs_sub_signOf_mul, own]
    exact (grid b).1
  · rwa [abs_sub_signOf_mul, abs_sub_signOf_mul, own] at hsame
  · intro h
    rw [← own] at h
    refine hne (mul_left_cancel₀ ?_ h)
    cases s <;> simp [signOf]

/-- Whatever `rnd` answers is nearest, ties to even. -/
theorem isNearestEven_of_rnd {m : ℕ} {x : ℤ} (h : rnd f s m x = some r) :
    IsNearestEven f (signOf s * (m * 2 ^ x)) r := by
  rcases eq_or_ne m 0 with rfl | hm
  · have zero : val f r = 0 := by
      rw [val_eq, absVal_of_rnd h, roundBits_zero, Nat.cast_zero, zero_mul, mul_zero]
    rw [Nat.cast_zero, zero_mul, mul_zero]
    refine ⟨isOperand_of_rnd h, fun b _ => ?_, fun b _ hsame hne => absurd ?_ hne⟩
    · rw [zero, sub_zero, abs_zero]
      exact abs_nonneg _
    · rwa [zero, sub_zero, sub_zero, abs_zero, abs_eq_zero, ← zero] at hsame
  · obtain ⟨low, -⟩ := (Nat.log2_eq_iff hm).mp rfl
    obtain ⟨close, tie⟩ := roundBits_nearest f m
    have x_pos : (0 : ℚ) < 2 ^ x := zpow_pos two_pos x
    have unit : (2 : ℚ) ^ ((m.log2 : ℤ) - fracBits f + x) = 2 ^ ((m.log2 : ℤ) - fracBits f) * 2 ^ x :=
      zpow_add₀ two_ne_zero _ _
    have own : (roundSignificand f m : ℚ) * 2 ^ ((m.log2 : ℤ) - fracBits f + x) = roundBits f m * 2 ^ x := by
      rw [unit, ← mul_assoc, roundSignificand_mul_zpow]
    have error : |(roundBits f m : ℚ) * 2 ^ x - m * 2 ^ x| = |(roundBits f m : ℚ) - m| * 2 ^ x := by
      rw [← sub_mul, abs_mul, abs_of_pos x_pos]
    refine isNearestEven_of_units (R := roundSignificand f m) (j := (m.log2 : ℤ) - fracBits f + x)
      (isOperand_of_rnd h) (signBit_of_rnd h) ((absVal_of_rnd h).trans own.symm) ?_ ?_ fun htie => ?_
    · have fill : (fracBits f : ℤ) + (m.log2 - fracBits f + x) = m.log2 + x := by ring
      rw [← zpow_natCast, ← zpow_add₀ two_ne_zero, fill, zpow_add₀ two_ne_zero, zpow_natCast]
      exact mul_le_mul_of_nonneg_right (mod_cast low) x_pos.le
    · rw [own, error, unit, mul_div_right_comm]
      exact mul_le_mul_of_nonneg_right close x_pos.le
    · rw [own, error, unit, mul_div_right_comm] at htie
      rw [fracField_of_rnd hm h]
      exact tie (mul_right_cancel₀ x_pos.ne' htie)

end Nearest

end Sys2Proof.Machine

namespace Sys2Proof.Proofs
open Sys2Proof.Machine

/-- Settles O18: an answer of `rnd` is a whole number of units of the last place, within half a unit. -/
theorem roundingIsNearestEven : Obligations.RoundingIsNearestEven := by
  intro f s m x r h
  rw [mul_assoc]
  exact ⟨signBit_of_rnd h, isNearestEven_of_rnd h⟩

end Sys2Proof.Proofs
end

section
/-!
PROOFS. Where `rnd` answers, the multiplier, and the two constants (42_fmac.md R94 to R96).
-/

namespace Sys2Proof.Machine

/-! ### Where `rnd` answers -/

section Answers
variable {f : Format} {s : Bool} {m : Nat} {x : ℤ}

/-- The exponent field of the special values, from the bias (00_scope.md R12). -/
theorem two_pow_expBits (f : Format) : 2 ^ expBits f = 2 * bias f + 2 := by
  cases f <;> decide

/-- The limit is half a unit in the last place below the first power of two that is too large. -/
theorem roundLimit_eq (f : Format) :
    roundLimit f = 2 ^ ((bias f : ℤ) + 1) - 2 ^ ((bias f : ℤ) - fracBits f) / 2 := by
  have whole : (2 : ℚ) ^ ((bias f : ℤ) + 1) = 2 ^ (fracBits f + 2) * 2 ^ ((bias f : ℤ) - fracBits f - 1) := by
    rw [← zpow_natCast, ← zpow_add₀ two_ne_zero]
    congr 1
    push_cast
    ring
  have half : (2 : ℚ) ^ ((bias f : ℤ) - fracBits f) / 2 = 2 ^ ((bias f : ℤ) - fracBits f - 1) := by
    rw [zpow_sub_one₀ two_ne_zero, div_eq_mul_inv]
  rw [roundLimit, whole, half]
  ring

/-- A significand that rounds up to the next power of two is of a number within half a unit of it. -/
theorem le_of_roundSignificand_carry (h : roundSignificand f m = 2 ^ (fracBits f + 1)) :
    (2 : ℚ) ^ ((m.log2 : ℤ) + 1) - 2 ^ ((m.log2 : ℤ) - fracBits f) / 2 ≤ m := by
  have rounded := roundSignificand_mul_zpow f m
  have top : ((2 ^ (fracBits f + 1) : ℕ) : ℚ) * 2 ^ ((m.log2 : ℤ) - fracBits f) = 2 ^ ((m.log2 : ℤ) + 1) := by
    rw [Nat.cast_pow, Nat.cast_ofNat, ← zpow_natCast, ← zpow_add₀ two_ne_zero]
    congr 1
    push_cast
    ring
  rw [h, top] at rounded
  have close := (abs_le.mp (roundBits_nearest f m).1).2
  linarith

/-- Between the least normal magnitude and the limit `rnd` answers. -/
theorem exists_rnd (s : Bool) (hlow : minNormal f ≤ m * 2 ^ x) (hhigh : m * 2 ^ x < roundLimit f) :
    ∃ r, rnd f s m x = some r := by
  have x_pos : (0 : ℚ) < 2 ^ x := zpow_pos two_pos x
  have hm : m ≠ 0 := by
    rintro rfl
    rw [Nat.cast_zero, zero_mul] at hlow
    exact absurd hlow (not_le.mpr (zpow_pos two_pos _))
  obtain ⟨low, high⟩ := (Nat.log2_eq_iff hm).mp rfl
  have lowQ : (2 : ℚ) ^ ((m.log2 : ℤ) + x) ≤ m * 2 ^ x := by
    rw [zpow_add₀ two_ne_zero, zpow_natCast]
    exact mul_le_mul_of_nonneg_right (mod_cast low) x_pos.le
  have highQ : (m : ℚ) * 2 ^ x < 2 ^ ((m.log2 : ℤ) + 1 + x) := by
    rw [zpow_add₀ two_ne_zero]
    exact mul_lt_mul_of_pos_right (mod_cast high) x_pos
  have unit_pos : (0 : ℚ) < 2 ^ ((bias f : ℤ) - fracBits f) := zpow_pos two_pos _
  have expLow : 1 - (bias f : ℤ) < m.log2 + 1 + x :=
    (zpow_lt_zpow_iff_right₀ one_lt_two).mp (hlow.trans_lt highQ)
  have expHigh : (m.log2 : ℤ) + x < bias f + 1 := by
    rw [roundLimit_eq] at hhigh
    exact (zpow_lt_zpow_iff_right₀ (one_lt_two (α := ℚ))).mp (by linarith)
  have carry : (m.log2 : ℤ) + x = bias f → roundSignificand f m ≠ 2 ^ (fracBits f + 1) := by
    intro hexp hcarry
    have near := mul_le_mul_of_nonneg_right (le_of_roundSignificand_carry hcarry) x_pos.le
    have limit : ((2 : ℚ) ^ ((m.log2 : ℤ) + 1) - 2 ^ ((m.log2 : ℤ) - fracBits f) / 2) * 2 ^ x =
        roundLimit f := by
      rw [roundLimit_eq, ← hexp, sub_mul, div_mul_eq_mul_div, ← zpow_add₀ two_ne_zero,
        ← zpow_add₀ two_ne_zero, add_right_comm, sub_add_eq_add_sub]
    exact absurd (limit ▸ near) (not_le.mpr hhigh)
  obtain ⟨e, he⟩ := Int.eq_ofNat_of_zero_le (show 0 ≤ x + m.log2 + bias f by omega)
  refine ⟨_, (rnd_eq_some_iff hm).mpr ⟨e, he.symm, by omega, ?_, rfl⟩⟩
  obtain ⟨sigLow, sigHigh⟩ := roundSignificand_le (f := f) hm
  rw [two_pow_expBits]
  rcases Nat.lt_or_ge e (2 * bias f) with hlt | hge
  · calc e * 2 ^ fracBits f + (roundSignificand f m - 2 ^ fracBits f)
      _ ≤ (e + 1) * 2 ^ fracBits f := by rw [Nat.succ_mul]; omega
      _ < (2 * bias f + 2 - 1) * 2 ^ fracBits f :=
        Nat.mul_lt_mul_of_pos_right (by omega) (Nat.two_pow_pos _)
  · have top : e = 2 * bias f := by omega
    have noCarry := carry (by omega)
    calc e * 2 ^ fracBits f + (roundSignificand f m - 2 ^ fracBits f)
      _ < (e + 1) * 2 ^ fracBits f := by rw [Nat.succ_mul]; omega
      _ = (2 * bias f + 2 - 1) * 2 ^ fracBits f := by rw [top]; congr 1

end Answers

/-! ### Rounding a value of the format -/

section Exact
variable {f : Format} {a b : BitVec f.flen}

theorem isNormal_of_not_isZero (ha : isOperand f a = true) (h : isZero f a = false) :
    isNormal f a = true := by
  rwa [isOperand, h, Bool.or_false] at ha

theorem isNormal_iff : isNormal f a = true ↔ 1 ≤ expField f a ∧ expField f a + 1 < 2 ^ expBits f := by
  have h := expField_lt f a
  rw [isNormal, Bool.and_eq_true, decide_eq_true_eq, decide_eq_true_eq]
  omega

theorem significand_of_isNormal (h : isNormal f a = true) :
    significand f a = 2 ^ fracBits f + fracField f a := by
  have exponent := (isNormal_iff.mp h).1
  rw [significand, if_neg]
  rw [isZero, Bool.and_eq_true, decide_eq_true_eq]
  omega

/-- Rounding loses nothing of a value that the format has. -/
theorem rnd_self (ha : isOperand f a = true) :
    rnd f (signBit f a) (significand f a) (scale f a) = some a := by
  cases h : isZero f a with
  | true =>
    have fields := h
    rw [isZero, Bool.and_eq_true, decide_eq_true_eq, decide_eq_true_eq] at fields
    obtain ⟨hexp, hfrac⟩ := fields
    have whole := image_fields f a
    rw [hexp, hfrac, Nat.zero_mul, Nat.zero_add] at whole
    rw [significand, if_pos h, rnd_zero, whole]
  | false =>
    have normal := isNormal_of_not_isZero ha h
    obtain ⟨hpos, hlt⟩ := isNormal_iff.mp normal
    have sig := significand_of_isNormal normal
    have frac := fracField_lt f a
    have hidden := Nat.two_pow_pos (fracBits f)
    have nonzero : significand f a ≠ 0 := by omega
    have log : (significand f a).log2 = fracBits f := by
      rw [Nat.log2_eq_iff nonzero, Nat.pow_succ]
      omega
    have exponent : scale f a + ((significand f a).log2 : ℕ) + bias f = expField f a := by
      rw [log, scale]
      ring
    rw [rnd_of_log2_le _ nonzero log.le exponent hpos hlt, log, sig, Nat.add_sub_cancel_left, Nat.sub_self,
      Nat.pow_zero, Nat.mul_one, image_fields]

end Exact

/-! ### The multiplier (42_fmac.md R96) -/

section Multiplier
variable {f : Format} {a b : BitVec f.flen}

theorem absVal_mul (a b : BitVec f.flen) :
    absVal f a * absVal f b = (significand f a * significand f b : ℕ) * 2 ^ (scale f a + scale f b) := by
  rw [zpow_add₀ two_ne_zero, Nat.cast_mul, absVal, absVal]
  ring

/-- `fmul` is `rnd` of the product of the magnitudes, however it is written. -/
theorem fmul_eq_of_rnd (ha : isOperand f a = true) (hb : isOperand f b = true) {m : ℕ} {x : ℤ}
    {r : BitVec f.flen} (hprod : absVal f a * absVal f b = m * 2 ^ x)
    (h : rnd f (signBit f a ^^ signBit f b) m x = some r) : fmul f a b = r := by
  rw [absVal_mul] at hprod
  rw [← rnd_congr hprod] at h
  simp only [fmul, ha, hb, h, Bool.and_self, if_true]

/-- In the range where the spec has a rule the multiplier's product is one rounding. -/
theorem exists_rnd_mul (h : val f a * val f b = 0 ∨
      (minNormal f ≤ |val f a * val f b| ∧ |val f a * val f b| < roundLimit f)) (s : Bool) :
    ∃ r, rnd f s (significand f a * significand f b) (scale f a + scale f b) = some r := by
  have magnitude := absVal_mul a b
  rw [abs_mul, abs_val, abs_val, magnitude] at h
  rcases h with zero | ⟨low, high⟩
  · have vanish : absVal f a * absVal f b = 0 := by
      rw [← abs_val, ← abs_val, ← abs_mul, zero, abs_zero]
    rw [magnitude, mul_eq_zero, or_iff_left (zpow_ne_zero _ two_ne_zero), Nat.cast_eq_zero] at vanish
    exact ⟨_, by rw [vanish]; exact rnd_zero f s _⟩
  · exact exists_rnd s low high

end Multiplier

/-! ### The constants (42_fmac.md R94) -/

section Constants
variable (f : Format)

theorem signBit_kSens : signBit f (kSens f) = false := by cases f <;> decide

theorem signBit_kG : signBit f (kG f) = false := by cases f <;> decide

theorem isNormal_kSens : isNormal f (kSens f) = true := by cases f <;> decide

theorem isNormal_kG : isNormal f (kG f) = true := by cases f <;> decide

theorem isOperand_kSens : isOperand f (kSens f) = true := by rw [isOperand, isNormal_kSens, Bool.true_or]

theorem isOperand_kG : isOperand f (kG f) = true := by rw [isOperand, isNormal_kG, Bool.true_or]

/-- `K_SENS_F` is a power of two. -/
theorem significand_kSens : significand f (kSens f) = 2 ^ fracBits f := by cases f <;> decide

theorem scale_kSens : scale f (kSens f) = -12 - fracBits f := by cases f <;> decide

theorem absVal_kSens : absVal f (kSens f) = 2 ^ (-12 : ℤ) := by
  rw [absVal, significand_kSens, scale_kSens, Nat.cast_pow, Nat.cast_ofNat, ← zpow_natCast,
    ← zpow_add₀ two_ne_zero]
  congr 1
  ring

/-- The last place of `K_G_F`, whose exponent is 3. -/
theorem scale_kG : scale f (kG f) = 3 - fracBits f := by cases f <;> decide

/-- The significand of `K_G_F` is `gNum`, in the last place of the format. -/
theorem significand_kG : significand f (kG f) * 2 ^ gDen f = gNum f * 2 ^ (fracBits f - 3) := by
  cases f <;> decide

theorem absVal_kG : absVal f (kG f) = gNum f * 2 ^ (-(gDen f : ℤ)) := by
  have sig : (significand f (kG f) : ℚ) * 2 ^ gDen f = gNum f * 2 ^ (fracBits f - 3) :=
    mod_cast significand_kG f
  have place : scale f (kG f) = -((fracBits f - 3 : ℕ) : ℤ) := by
    rw [scale_kG]
    cases f <;> decide
  rw [absVal, place, zpow_neg, zpow_neg, zpow_natCast, zpow_natCast, ← div_eq_mul_inv, ← div_eq_mul_inv,
    div_eq_div_iff (by positivity) (by positivity), sig]

theorem val_kSens : val f (kSens f) = 1 / 4096 := by
  rw [val_eq, signBit_kSens, absVal_kSens]
  norm_num

theorem val_kG : val f (kG f) = (gNum f : ℚ) / 2 ^ gDen f := by
  rw [val_eq, signBit_kG, absVal_kG, signOf_false, one_mul, zpow_neg, zpow_natCast,
    div_eq_mul_inv]

/-- `K_G_F` is a whole number of units in its last place, and 9.80665 is less than half a unit away. -/
theorem isNearestEven_kG : IsNearestEven f (980665 / 100000) (kG f) := by
  have units : absVal f (kG f) = (significand f (kG f) : ℚ) * 2 ^ scale f (kG f) := rfl
  have close : |absVal f (kG f) - 980665 / 100000| < 2 ^ scale f (kG f) / 2 := by
    rw [absVal_kG, scale_kG]
    cases f <;> norm_num [gNum, gDen, fracBits, abs_lt]
  have fill : 2 ^ fracBits f * (2 : ℚ) ^ scale f (kG f) ≤ 980665 / 100000 := by
    rw [scale_kG, ← zpow_natCast, ← zpow_add₀ two_ne_zero, add_sub_cancel]
    norm_num
  have nearest := isNearestEven_of_units (isOperand_kG f) (signBit_kG f) units fill (units ▸ close.le)
    (fun tie => absurd (units ▸ tie) close.ne)
  rwa [signOf_false, one_mul] at nearest

end Constants

end Sys2Proof.Machine

namespace Sys2Proof.Proofs
open Sys2Proof.Machine

/-- Settles O19: in the range `rnd` answers for the product of the significands, and its answer is nearest. -/
theorem multiplierRoundsExactProduct : Obligations.MultiplierRoundsExactProduct := by
  intro f a b ha hb hrange
  obtain ⟨r, hr⟩ := exists_rnd_mul hrange (signBit f a ^^ signBit f b)
  have product : val f a * val f b = signOf (signBit f a ^^ signBit f b) *
      ((significand f a * significand f b : ℕ) * 2 ^ (scale f a + scale f b)) := by
    rw [← absVal_mul, val_eq, val_eq, signOf_xor]
    ring
  rw [fmul_eq_of_rnd ha hb (absVal_mul a b) hr, product]
  exact ⟨isNearestEven_of_rnd hr, signBit_of_rnd hr⟩

/-- Settles O17: `K_G_F` is within half a unit of 9.80665, and the distances are differences of fractions. -/
theorem constantsAreNearest : Obligations.ConstantsAreNearest := by
  refine ⟨⟨rfl, rfl⟩, ⟨rfl, rfl⟩, val_kSens, val_kG, isNearestEven_kG, ?_, ?_, ?_⟩ <;>
    norm_num [val_kG, gNum, gDen]

end Sys2Proof.Proofs
end

section
/-!
PROOFS. The three values of `FACC` in a `RAW2MS2` as roundings of exact products, and the command (42_fmac.md
R98 to R104).
-/

namespace Sys2Proof.Machine

/-! ### Numbers of moderate size -/

/-- Every number the accumulator can be asked for is far inside the range of both formats (42_fmac.md R104). -/
theorem exists_rnd_of_moderate (f : Format) (s : Bool) {m : ℕ} {x : ℤ}
    (hlow : (2 : ℚ) ^ (-20 : ℤ) ≤ m * 2 ^ x) (hhigh : (m : ℚ) * 2 ^ x < 2 ^ (20 : ℤ)) : ∃ r, rnd f s m x = some r := by
  have least : minNormal f ≤ 2 ^ (-20 : ℤ) :=
    zpow_le_zpow_right₀ one_le_two (by cases f <;> decide)
  have limit : (2 : ℚ) ^ (20 : ℤ) ≤ roundLimit f := by
    have half : (2 : ℚ) ^ ((bias f : ℤ) - fracBits f) / 2 ≤ 2 ^ (bias f : ℤ) :=
      (half_le_self (zpow_nonneg zero_le_two _)).trans (zpow_le_zpow_right₀ one_le_two (by omega))
    have twenty : (2 : ℚ) ^ (20 : ℤ) ≤ 2 ^ (bias f : ℤ) :=
      zpow_le_zpow_right₀ one_le_two (by cases f <;> decide)
    rw [roundLimit_eq, two_zpow_succ]
    linarith
  exact exists_rnd s (least.trans hlow) (hhigh.trans_le limit)

theorem isNormal_of_absVal_ne_zero {f : Format} {a : BitVec f.flen} (ha : isOperand f a = true)
    (h : absVal f a ≠ 0) : isNormal f a = true := by
  refine isNormal_of_not_isZero ha (Bool.eq_false_iff.mpr fun hz => h (absVal_of_isZero hz))

/-- The exponent field places the magnitude between two powers of two (00_scope.md R12). -/
theorem absVal_bounds {f : Format} {a : BitVec f.flen} (h : isNormal f a = true) :
    (2 : ℚ) ^ ((expField f a : ℤ) - bias f) ≤ absVal f a ∧
    absVal f a < 2 ^ ((expField f a : ℤ) - bias f + 1) := by
  have sig := significand_of_isNormal h
  have frac := fracField_lt f a
  have low : (2 ^ fracBits f : ℚ) ≤ significand f a := by
    exact_mod_cast (by omega : 2 ^ fracBits f ≤ significand f a)
  have high : (significand f a : ℚ) < 2 ^ (fracBits f + 1) := mod_cast significand_lt f a
  have unit : (0 : ℚ) < 2 ^ scale f a := zpow_pos two_pos _
  have top : (2 : ℚ) ^ ((expField f a : ℤ) - bias f) = 2 ^ fracBits f * 2 ^ scale f a := by
    rw [scale, ← zpow_natCast, ← zpow_add₀ two_ne_zero]
    congr 1
    ring
  rw [two_zpow_succ, top, ← mul_assoc, ← pow_succ']
  exact ⟨mul_le_mul_of_nonneg_right low unit.le, mul_lt_mul_of_pos_right high unit⟩

/-! ### The gravity constant -/

section Gravity
variable (f : Format)

theorem gNum_bounds : (9806649 / 10 ^ 6 : ℚ) ≤ gNum f * 2 ^ (-(gDen f : ℤ)) ∧
    (gNum f * 2 ^ (-(gDen f : ℤ)) : ℚ) ≤ 9806651 / 10 ^ 6 := by
  cases f <;> norm_num [gNum, gDen]

theorem gNum_odd : gNum f % 2 = 1 := by cases f <;> decide

theorem log2_gNum_le : (gNum f).log2 ≤ fracBits f := by cases f <;> decide

/-- The exact product that a `RAW2MS2` rounds, `N / 4096` times the value of `K_G_F` (42_fmac.md R100). -/
def exactMs2 (n : ℕ) : ℚ := (n * gNum f : ℕ) * 2 ^ (-((gDen f : ℤ) + 12))

theorem exactMs2_eq (n : ℕ) : exactMs2 f n = n / 4096 * (gNum f * 2 ^ (-(gDen f : ℤ))) := by
  rw [exactMs2, neg_add, zpow_add₀ two_ne_zero]
  push_cast
  norm_num
  ring

end Gravity

/-! ### The three values of the accumulator -/

section Accumulator
variable (f : Format) (a : Half)

theorem signBit_facc1 : signBit f (facc1 f a) = a.msb := by
  rw [facc1]
  by_cases h : a = 0#16
  · rw [h, i2f_zero]
    cases f <;> decide
  · obtain ⟨e, hlow, hhigh⟩ := exists_highest_bit h
    exact (fields_i2f f hlow hhigh).1

theorem isOperand_facc1 : isOperand f (facc1 f a) = true := isOperand_i2f f a

theorem absVal_facc1 : absVal f (facc1 f a) = a.toInt.natAbs := by
  rw [← abs_val, facc1, val_i2f, Nat.cast_natAbs, Int.cast_abs]

theorem natAbs_log2_le : a.toInt.natAbs.log2 ≤ 15 := by
  by_cases h : a = 0#16
  · rw [h]
    decide
  · obtain ⟨e, hlow, hhigh⟩ := exists_highest_bit h
    rw [(log2_natAbs_eq hlow hhigh).2]
    exact highest_bit_le hlow

/-- A rounding of a product with the converted amount is what the multiplier leaves. -/
theorem fmul_facc1 {b r : BitVec f.flen} (hb : isOperand f b = true) (hs : signBit f b = false) {m : ℕ}
    {x : ℤ} (hval : absVal f b = m * 2 ^ x) (h : rnd f a.msb (a.toInt.natAbs * m) x = some r) :
    fmul f (facc1 f a) b = r := by
  refine fmul_eq_of_rnd (isOperand_facc1 f a) hb (m := a.toInt.natAbs * m) (x := x) ?_ ?_
  · rw [absVal_facc1, hval, Nat.cast_mul, mul_assoc]
  · rwa [signBit_facc1, hs, Bool.xor_false]

/-- The product of an amount with a factor of moderate size has a rounding. -/
theorem exists_rnd_amount_mul (s : Bool) {m : ℕ} {x : ℤ} (hlow : (2 : ℚ) ^ (-20 : ℤ) ≤ m * 2 ^ x)
    (hhigh : (m : ℚ) * 2 ^ x ≤ 2 ^ (4 : ℤ)) : ∃ r, rnd f s (a.toInt.natAbs * m) x = some r := by
  rcases Nat.eq_zero_or_pos a.toInt.natAbs with zero | pos
  · exact ⟨_, by rw [zero, Nat.zero_mul]; exact rnd_zero f s x⟩
  · have nLow : (1 : ℚ) ≤ a.toInt.natAbs := mod_cast pos
    have nHigh : (a.toInt.natAbs : ℚ) ≤ 2 ^ 15 := mod_cast natAbs_toInt_le a
    have factor : (0 : ℚ) ≤ m * 2 ^ x := (zpow_nonneg zero_le_two _).trans hlow
    have product : ((a.toInt.natAbs * m : ℕ) : ℚ) * 2 ^ x = a.toInt.natAbs * (m * 2 ^ x) := by
      rw [Nat.cast_mul, mul_assoc]
    refine exists_rnd_of_moderate f s ?_ ?_ <;> rw [product]
    · exact hlow.trans (le_mul_of_one_le_left factor nLow)
    · calc (a.toInt.natAbs : ℚ) * (m * 2 ^ x)
        _ ≤ 2 ^ 15 * 2 ^ (4 : ℤ) := mul_le_mul nHigh hhigh factor (by norm_num)
        _ < 2 ^ (20 : ℤ) := by norm_num

/-- `FACC` after the second write is the rounding of `N / 4096` (42_fmac.md R98). -/
theorem rnd_facc2 : rnd f a.msb a.toInt.natAbs (-12) = some (facc2 f a) := by
  have factor : absVal f (kSens f) = (1 : ℕ) * 2 ^ (-12 : ℤ) := by
    rw [absVal_kSens, Nat.cast_one, one_mul]
  obtain ⟨r, hr⟩ := exists_rnd_amount_mul f a a.msb (m := 1) (x := -12) (by norm_num) (by norm_num)
  rw [facc2, fmul_facc1 f a (isOperand_kSens f) (signBit_kSens f) factor hr, ← hr, Nat.mul_one]

theorem signBit_facc2 : signBit f (facc2 f a) = a.msb := signBit_of_rnd (rnd_facc2 f a)

theorem isOperand_facc2 : isOperand f (facc2 f a) = true := isOperand_of_rnd (rnd_facc2 f a)

/-- The first multiplication is exact (42_fmac.md R99). -/
theorem absVal_facc2 : absVal f (facc2 f a) = a.toInt.natAbs * 2 ^ (-12 : ℤ) := by
  have fits : a.toInt.natAbs.log2 ≤ fracBits f := (natAbs_log2_le a).trans (by cases f <;> decide)
  rw [absVal_of_rnd (rnd_facc2 f a), roundBits_of_log2_le fits]

/-- `FACC` after the second write is the converted amount with 12 taken off its exponent (42_fmac.md R99). -/
theorem facc2_of_bounds {e : ℕ} (hlow : 2 ^ e ≤ a.toInt.natAbs) (hhigh : a.toInt.natAbs < 2 ^ (e + 1)) :
    facc2 f a = image f a.msb
      ((e + bias f - 12) * 2 ^ fracBits f + (a.toInt.natAbs - 2 ^ e) * 2 ^ (fracBits f - e)) := by
  obtain ⟨hfit, -, hlt⟩ := exponent_fits f (highest_bit_le hlow)
  have hbias : 127 ≤ bias f := by cases f <;> decide
  obtain ⟨nonzero, rfl⟩ := log2_natAbs_eq hlow hhigh
  exact Option.some.inj ((rnd_facc2 f a).symm.trans
    (rnd_of_log2_le a.msb nonzero hfit (by omega) (by omega) (by omega)))

/-- The first multiplication leaves the sign and the fraction, and lowers the exponent field by 12
(42_fmac.md R99). -/
theorem fields_facc2 (ha : a ≠ 0#16) :
    signBit f (facc2 f a) = signBit f (facc1 f a) ∧
    expField f (facc2 f a) + 12 = expField f (facc1 f a) ∧
    fracField f (facc2 f a) = fracField f (facc1 f a) := by
  obtain ⟨e, hlow, hhigh⟩ := exists_highest_bit ha
  obtain ⟨hfit, -, hlt⟩ := exponent_fits f (highest_bit_le hlow)
  have hbias : 127 ≤ bias f := by cases f <;> decide
  have lower : e + bias f - 12 < 2 ^ expBits f := by omega
  have fraction := fraction_lt hlow hfit hhigh
  obtain ⟨-, exponent1, fraction1⟩ := fields_i2f f hlow hhigh
  refine ⟨by rw [signBit_facc2, signBit_facc1], ?_, ?_⟩ <;> rw [facc2_of_bounds f a hlow hhigh, facc1]
  · rw [expField_image lower fraction, exponent1]
    omega
  · rw [fracField_image lower fraction, fraction1]

/-- The result is one rounding of the exact product (42_fmac.md R100). -/
theorem rnd_facc3 :
    rnd f a.msb (a.toInt.natAbs * gNum f) (-((gDen f : ℤ) + 12)) = some (facc3 f a) := by
  have product : absVal f (facc2 f a) * absVal f (kG f) =
      (a.toInt.natAbs * gNum f : ℕ) * 2 ^ (-((gDen f : ℤ) + 12)) := by
    rw [absVal_facc2, absVal_kG, neg_add, zpow_add₀ two_ne_zero]
    push_cast
    ring
  obtain ⟨r, hr⟩ := exists_rnd_amount_mul f a a.msb (m := gNum f) (x := -((gDen f : ℤ) + 12))
    (by cases f <;> norm_num [gNum, gDen]) (by cases f <;> norm_num [gNum, gDen])
  have sign : a.msb = (signBit f (facc2 f a) ^^ signBit f (kG f)) := by
    rw [signBit_facc2, signBit_kG, Bool.xor_false]
  rw [facc3, fmul_eq_of_rnd (isOperand_facc2 f a) (isOperand_kG f) product (sign ▸ hr), ← hr]

theorem signBit_facc3 : signBit f (facc3 f a) = a.msb := signBit_of_rnd (rnd_facc3 f a)

theorem isOperand_facc3 : isOperand f (facc3 f a) = true := isOperand_of_rnd (rnd_facc3 f a)

theorem closedMs2_toInt : closedMs2 f a.toInt = some (facc3 f a) := by
  rw [closedMs2, ← BitVec.msb_eq_toInt, rnd_facc3]

/-- The sign and the magnitude of an amount make the number. -/
theorem signOf_mul_natAbs : signOf a.msb * (a.toInt.natAbs : ℚ) = a.toInt := sign_mul_natAbs

/-- The magnitude of the result is the rounded numerator (42_fmac.md R100). -/
theorem absVal_facc3 : absVal f (facc3 f a) =
    roundBits f (a.toInt.natAbs * gNum f) * 2 ^ (-((gDen f : ℤ) + 12)) := absVal_of_rnd (rnd_facc3 f a)

theorem val_facc3 : val f (facc3 f a) = signOf a.msb * absVal f (facc3 f a) := by
  rw [val_eq, signBit_facc3]

/-- The result is nearest to `N / 4096` times the value of `K_G_F` (42_fmac.md R100). -/
theorem isNearestEven_facc3 : IsNearestEven f (a.toInt / 4096 * val f (kG f)) (facc3 f a) := by
  have exact : (a.toInt : ℚ) / 4096 * val f (kG f) = signOf a.msb * exactMs2 f a.toInt.natAbs := by
    rw [exactMs2_eq, val_eq, signBit_kG, absVal_kG, ← signOf_mul_natAbs, signOf_false]
    ring
  rw [exact]
  exact isNearestEven_of_rnd (rnd_facc3 f a)

end Accumulator

/-! ### The size of the result (42_fmac.md R102, R104) -/

section Size
variable (f : Format) (a : Half)

/-- The rounding error of the result, relative to the exact product. -/
theorem absVal_facc3_relative : |absVal f (facc3 f a) - exactMs2 f a.toInt.natAbs| * 2 ^ (fracBits f + 1) ≤
    exactMs2 f a.toInt.natAbs := absVal_of_rnd_relative (rnd_facc3 f a)

/-- The magnitude of the result in steps of the amount: each step is 9.80665 / 4096, to seven digits. -/
theorem absVal_facc3_bounds : (23942 / 10 ^ 7 : ℚ) * a.toInt.natAbs ≤ absVal f (facc3 f a) ∧
    absVal f (facc3 f a) ≤ (239421 / 10 ^ 8 : ℚ) * a.toInt.natAbs := by
  obtain ⟨gLow, gHigh⟩ := gNum_bounds f
  have nonneg : (0 : ℚ) ≤ a.toInt.natAbs := Nat.cast_nonneg _
  have exactLow := mul_le_mul_of_nonneg_left gLow (div_nonneg nonneg (by norm_num : (0 : ℚ) ≤ 4096))
  have exactHigh := mul_le_mul_of_nonneg_left gHigh (div_nonneg nonneg (by norm_num : (0 : ℚ) ≤ 4096))
  rw [← exactMs2_eq] at exactLow exactHigh
  have relative : |absVal f (facc3 f a) - exactMs2 f a.toInt.natAbs| * 2 ^ 24 ≤ exactMs2 f a.toInt.natAbs :=
    (mul_le_mul_of_nonneg_left (pow_le_pow_right₀ one_le_two (by cases f <;> decide)) (abs_nonneg _)).trans
      (absVal_facc3_relative f a)
  obtain ⟨errorLow, errorHigh⟩ := abs_le.mp ((le_div_iff₀ (by norm_num)).mpr relative)
  constructor <;> linarith

/-- The result in steps of the amount, its sign included. -/
theorem val_facc3_bounds :
    (0 ≤ a.toInt → (23942 / 10 ^ 7 : ℚ) * a.toInt ≤ val f (facc3 f a) ∧
      val f (facc3 f a) ≤ (239421 / 10 ^ 8 : ℚ) * a.toInt) ∧
    (a.toInt < 0 → (239421 / 10 ^ 8 : ℚ) * a.toInt ≤ val f (facc3 f a) ∧
      val f (facc3 f a) ≤ (23942 / 10 ^ 7 : ℚ) * a.toInt) := by
  obtain ⟨low, high⟩ := absVal_facc3_bounds f a
  rw [val_facc3, ← signOf_mul_natAbs a, BitVec.msb_eq_toInt]
  refine ⟨fun h => ?_, fun h => ?_⟩
  · rw [decide_eq_false (not_lt.mpr h), signOf_false, one_mul, one_mul]
    exact ⟨low, high⟩
  · rw [decide_eq_true h, signOf_true]
    constructor <;> linarith

/-- The results increase with the amount: the error is far less than a step (42_fmac.md R102). -/
theorem val_facc3_lt {a b : Half} (ha : inRange a) (hb : inRange b) (h : a.toInt < b.toInt) :
    val f (facc3 f a) < val f (facc3 f b) := by
  obtain ⟨aPos, aNeg⟩ := val_facc3_bounds f a
  obtain ⟨bPos, bNeg⟩ := val_facc3_bounds f b
  have step : (a.toInt : ℚ) + 1 ≤ b.toInt := mod_cast h
  have low : (-8192 : ℚ) ≤ a.toInt := mod_cast ha.1
  have high : (b.toInt : ℚ) ≤ 8191 := mod_cast hb.2
  rcases lt_or_ge b.toInt 0 with hb0 | hb0
  · have below := (aNeg (h.trans hb0)).2
    have above := (bNeg hb0).1
    linarith
  · have above := (bPos hb0).1
    have bNonneg : (0 : ℚ) ≤ b.toInt := mod_cast hb0
    rcases lt_or_ge a.toInt 0 with ha0 | ha0
    · have below := (aNeg ha0).2
      have aNegative : (a.toInt : ℚ) < 0 := mod_cast ha0
      linarith
    · have below := (aPos ha0).2
      linarith

variable {f a}

/-- The magnitude of a result other than zero (42_fmac.md R104). -/
theorem absVal_facc3_range (ha : inRange a) (h0 : a ≠ 0#16) :
    239 / 100000 ≤ absVal f (facc3 f a) ∧ absVal f (facc3 f a) ≤ 1962 / 100 := by
  obtain ⟨low, high⟩ := absVal_facc3_bounds f a
  have nonzero : a.toInt ≠ 0 := fun h => h0 (BitVec.eq_of_toInt_eq h)
  obtain ⟨rangeLow, rangeHigh⟩ := ha
  have nLow : (1 : ℚ) ≤ a.toInt.natAbs := by exact_mod_cast (by omega : 1 ≤ a.toInt.natAbs)
  have nHigh : (a.toInt.natAbs : ℚ) ≤ 8192 := by exact_mod_cast (by omega : a.toInt.natAbs ≤ 8192)
  constructor <;> linarith

theorem isNormal_facc3 (ha : inRange a) (h0 : a ≠ 0#16) : isNormal f (facc3 f a) = true := by
  have low := (absVal_facc3_range (f := f) ha h0).1
  exact isNormal_of_absVal_ne_zero (isOperand_facc3 f a) (by linarith)

/-- The exponent fields of the results (42_fmac.md R102). -/
theorem expField_facc3 (ha : inRange a) (h0 : a ≠ 0#16) :
    bias f ≤ expField f (facc3 f a) + 9 ∧ expField f (facc3 f a) ≤ bias f + 4 := by
  obtain ⟨low, high⟩ := absVal_facc3_range (f := f) ha h0
  obtain ⟨expLow, expHigh⟩ := absVal_bounds (isNormal_facc3 (f := f) ha h0)
  have least : (2 : ℚ) ^ (-9 : ℤ) < 2 ^ ((expField f (facc3 f a) : ℤ) - bias f + 1) := by
    refine lt_of_le_of_lt (le_trans ?_ low) expHigh
    norm_num
  have greatest : (2 : ℚ) ^ ((expField f (facc3 f a) : ℤ) - bias f) < 2 ^ (5 : ℤ) := by
    refine lt_of_le_of_lt (expLow.trans high) ?_
    norm_num
  rw [zpow_lt_zpow_iff_right₀ one_lt_two] at least greatest
  omega

end Size

/-! ### The amount 0 -/

section Zero
variable (f : Format)

theorem facc1_zero : facc1 f 0#16 = 0#f.flen := i2f_zero f

theorem facc2_zero : facc2 f 0#16 = 0#f.flen :=
  Option.some.inj ((rnd_facc2 f 0#16).symm.trans (rnd_zero f false _))

theorem facc3_zero : facc3 f 0#16 = 0#f.flen := by
  have h := rnd_facc3 f 0#16
  rw [BitVec.toInt_zero, Int.natAbs_zero, Nat.zero_mul, rnd_zero] at h
  exact (Option.some.inj h).symm

end Zero

/-! ### Other orders of the factors (42_fmac.md R101) -/

section Order
variable (f : Format) (a : Half)

/-- Gravity first: the power of two then loses nothing, and both orders round one number. -/
theorem fmul_kG_kSens : fmul f (fmul f (facc1 f a) (kG f)) (kSens f) = facc3 f a := by
  obtain ⟨r, hr⟩ := exists_rnd_amount_mul f a a.msb (m := gNum f) (x := -(gDen f : ℤ))
    (by cases f <;> norm_num [gNum, gDen]) (by cases f <;> norm_num [gNum, gDen])
  rw [fmul_facc1 f a (isOperand_kG f) (signBit_kG f) (absVal_kG f) hr]
  have product : absVal f r * absVal f (kSens f) =
      significand f (facc3 f a) * 2 ^ scale f (facc3 f a) := by
    rw [absVal_of_rnd hr, absVal_kSens, mul_assoc, ← zpow_add₀ two_ne_zero, ← neg_add]
    exact (absVal_facc3 f a).symm
  refine fmul_eq_of_rnd (isOperand_of_rnd hr) (isOperand_kSens f) product ?_
  rw [signBit_of_rnd hr, signBit_kSens, Bool.xor_false, ← signBit_facc3 f a]
  exact rnd_self (isOperand_facc3 f a)

/-- The product of the two constants is exact. -/
theorem rnd_kSens_kG : rnd f false (gNum f) (-((gDen f : ℤ) + 12)) = some (fmul f (kSens f) (kG f)) := by
  have product : absVal f (kSens f) * absVal f (kG f) = gNum f * 2 ^ (-((gDen f : ℤ) + 12)) := by
    rw [absVal_kSens, absVal_kG, neg_add, zpow_add₀ two_ne_zero]
    ring
  obtain ⟨r, hr⟩ := exists_rnd_of_moderate f false (m := gNum f) (x := -((gDen f : ℤ) + 12))
    (by cases f <;> norm_num [gNum, gDen]) (by cases f <;> norm_num [gNum, gDen])
  rw [fmul_eq_of_rnd (isOperand_kSens f) (isOperand_kG f) product
    (by rw [signBit_kSens, signBit_kG]; exact hr), hr]

theorem fmul_kSens_mul_kG : fmul f (facc1 f a) (fmul f (kSens f) (kG f)) = facc3 f a := by
  have constant := rnd_kSens_kG f
  have value := absVal_of_rnd constant
  rw [roundBits_of_log2_le (log2_gNum_le f)] at value
  exact fmul_facc1 f a (isOperand_of_rnd constant) (signBit_of_rnd constant) value (rnd_facc3 f a)

end Order

/-! ### The opposite sign (42_fmac.md R103) -/

section Opposite
variable {f : Format}

/-- Flipping the bit above a number adds it. -/
theorem xor_two_pow {n k : ℕ} (h : n < 2 ^ k) : n ^^^ 2 ^ k = 2 ^ k + n := by
  have low : (n ^^^ 2 ^ k) % 2 ^ k = n := by
    rw [Nat.xor_mod_two_pow, Nat.mod_self, Nat.xor_zero, Nat.mod_eq_of_lt h]
  have high : (n ^^^ 2 ^ k) / 2 ^ k = 1 := by
    rw [Nat.xor_div_two_pow, Nat.div_eq_of_lt h, Nat.div_self (Nat.two_pow_pos k), Nat.zero_xor]
  rw [← Nat.div_add_mod (n ^^^ 2 ^ k) (2 ^ k), low, high, Nat.mul_one]

theorem image_true {mag : ℕ} (h : mag < 2 ^ (fracBits f + expBits f)) :
    image f true mag = flipSign f (image f false mag) := by
  apply BitVec.eq_of_toNat_eq
  have width : f.flen = fracBits f + expBits f + 1 := by cases f <;> rfl
  have room : 2 ^ f.flen = 2 * 2 ^ (fracBits f + expBits f) := by rw [width, Nat.pow_succ']
  rw [flipSign, BitVec.toNat_xor, BitVec.toNat_twoPow, image, image, BitVec.toNat_ofNat, BitVec.toNat_ofNat,
    if_pos rfl, if_neg Bool.false_ne_true, Nat.zero_add, show f.flen - 1 = fracBits f + expBits f by omega,
    Nat.mod_eq_of_lt (by omega), Nat.mod_eq_of_lt (by omega), Nat.mod_eq_of_lt (by omega), xor_two_pow h]

theorem flipSign_flipSign (a : BitVec f.flen) : flipSign f (flipSign f a) = a := by
  rw [flipSign, flipSign, BitVec.xor_assoc, BitVec.xor_self, BitVec.xor_zero]

theorem image_not {mag : ℕ} (s : Bool) (h : mag < 2 ^ (fracBits f + expBits f)) :
    image f (!s) mag = flipSign f (image f s mag) := by
  cases s with
  | false => exact image_true h
  | true => rw [image_true h, flipSign_flipSign, Bool.not_true]

/-- Rounding is symmetric about zero (42_fmac.md R103). -/
theorem rnd_not {s : Bool} {m : ℕ} {x : ℤ} {r : BitVec f.flen} (h : rnd f s m x = some r) :
    rnd f (!s) m x = some (flipSign f r) := by
  rcases eq_or_ne m 0 with rfl | hm
  · rw [rnd_zero] at h ⊢
    rw [← Option.some.inj h, image_not s (Nat.two_pow_pos _)]
  · obtain ⟨e, he, hpos, hlt, rfl⟩ := (rnd_eq_some_iff hm).mp h
    refine (rnd_eq_some_iff hm).mpr ⟨e, he, hpos, hlt, image_not s (hlt.trans_le ?_)⟩
    rw [Nat.pow_add, Nat.mul_comm]
    exact Nat.mul_le_mul_left _ (Nat.sub_le _ _)

theorem toInt_neg_of_pos {a : Half} (h : 0 < a.toInt) : (-a).toInt = -a.toInt := by
  refine BitVec.toInt_neg_of_ne_intMin ?_
  rintro rfl
  exact absurd h (by decide)

theorem facc3_neg (f : Format) {a : Half} (h : 0 < a.toInt) : facc3 f (-a) = flipSign f (facc3 f a) := by
  have value := toInt_neg_of_pos h
  have sign : (-a).msb = !a.msb := by
    rw [BitVec.msb_eq_toInt, BitVec.msb_eq_toInt, value, decide_eq_true (by omega),
      decide_eq_false (by omega), Bool.not_false]
  have opposite := rnd_facc3 f (-a)
  rw [value, Int.natAbs_neg, sign, rnd_not (rnd_facc3 f a)] at opposite
  exact (Option.some.inj opposite).symm

end Opposite

/-! ### The command and its corner cases (42_fmac.md R98) -/

/-- Everything a `RAW2MS2` does to this hardware's machine. -/
theorem exec_raw2ms2 (m l : Byte) (s : State) : exec (.raw2ms2 m l) s =
    answer { s.toStateAt with amt := sxu m l, facc := facc3 Config.fmt (sxu m l), fv := 1#1 } := by
  rw [exec_eq, commandAt_raw2ms2]

/-- At −8192 nothing is rounded: the amount is a power of two. -/
theorem val_facc3_least (f : Format) : val f (facc3 f (-8192#16)) = -2 * val f (kG f) := by
  have whole : roundBits f (8192 * gNum f) = 8192 * gNum f := by cases f <;> decide
  have amount : (-8192#16).toInt.natAbs = 8192 ∧ (-8192#16).msb = true := by decide
  rw [val_facc3, absVal_facc3, amount.1, amount.2, whole, val_eq, signBit_kG, absVal_kG, neg_add,
    zpow_add₀ two_ne_zero, signOf_false, signOf_true]
  push_cast
  norm_num
  ring

end Sys2Proof.Machine

namespace Sys2Proof.Proofs
open Sys2Proof.Machine

/-- Settles O20: the value from the exact product, the fields from the image `rnd` gives. -/
theorem sensitivityProductIsExact : Obligations.SensitivityProductIsExact := by
  refine fun f a _ => ⟨?_, ?_, fields_facc2 f a⟩
  · rw [val_eq, signBit_facc2, absVal_facc2, ← mul_assoc, signOf_mul_natAbs]
    norm_num [div_eq_mul_inv]
  · rintro rfl
    exact facc2_zero f

/-- Settles O21: both multiplications together are one rounding. -/
theorem ms2ClosedForm : Obligations.Ms2ClosedForm := by
  refine ⟨fun f m l => ⟨closedMs2_toInt f _, isNearestEven_facc3 f _⟩, fun m l => ?_⟩
  obtain ⟨low, high⟩ := sxu_inRange m l
  rw [gNum, gNum]
  omega

/-- Settles O22: every order rounds one number once. -/
theorem factorOrderIrrelevant : Obligations.FactorOrderIrrelevant :=
  fun f a _ => ⟨fmul_kG_kSens f a, fmul_kSens_mul_kG f a⟩

/-- Settles O23: the order from the size of a step, the exponents from the size of the result. -/
theorem ms2RangeAndOrder : Obligations.Ms2RangeAndOrder := by
  refine ⟨fun f a b => val_facc3_lt f, by decide, by decide, by decide, by decide, fun a ha h0 => ?_⟩
  obtain ⟨low32, high32⟩ := expField_facc3 (f := .binary32) ha h0
  obtain ⟨low64, high64⟩ := expField_facc3 (f := .binary64) ha h0
  simp only [bias] at low32 high32 low64 high64
  omega

/-- Settles O24: rounding is symmetric about zero, and 8192 is not in range. -/
theorem ms2OddSymmetry : Obligations.Ms2OddSymmetry := by
  refine ⟨fun f a low _ => ⟨facc3_neg f low, toInt_neg_of_pos low⟩, fun m l h => ?_⟩
  have high := (sxu_inRange m l).2
  omega

/-- Settles O25: a nonzero amount gives nonzero products of moderate size. -/
theorem ms2NoSpecialValue : Obligations.Ms2NoSpecialValue := by
  refine ⟨fun f => ⟨isNormal_kSens f, isNormal_kG f⟩, fun f a ha => ⟨?_, fun h0 => ?_⟩⟩
  · rintro rfl
    exact ⟨facc1_zero f, facc2_zero f, facc3_zero f⟩
  · obtain ⟨e, hlow, hhigh⟩ := exists_highest_bit h0
    have nonzero : (a.toInt.natAbs : ℚ) ≠ 0 := mod_cast (log2_natAbs_eq hlow hhigh).1
    have second : absVal f (facc2 f a) ≠ 0 := by
      rw [absVal_facc2]
      exact mul_ne_zero nonzero (zpow_ne_zero _ two_ne_zero)
    rw [abs_val]
    exact ⟨isNormal_i2f f hlow hhigh, isNormal_of_absVal_ne_zero (isOperand_facc2 f a) second,
      isNormal_facc3 ha h0, absVal_facc3_range ha h0⟩

/-- Settles O30: the register update of the command; the second command works from the same amount. -/
theorem raw2ms2Completes : Obligations.Raw2ms2Completes := by
  refine ⟨fun m l s => ⟨_, exec_raw2ms2 m l s, ?_⟩, fun m l s t h => ⟨_, exec_raw2ms2 _ l t, ?_⟩,
    fun _ _ => rfl, fun f => ⟨facc3_zero f, ?_⟩, val_facc3_least, by decide⟩
  · rw [facc3_eq]
  · rw [exec_raw2ms2] at h
    rw [← Host.Outcome.next.inj h, ← sxu_mask]
  · cases f <;> decide

end Sys2Proof.Proofs
end

section
/-!
PROOFS. The distance of the float result from the real-number formula and from the integer result (42_fmac.md
R105, R109). Both bounds are met with equality or nearly so, so the rounding error is followed as an integer, and
the few amounts that come near a bound are solved for.
-/

namespace Sys2Proof.Machine

/-! ### The rounding error as an integer -/

section RoundError
variable (f : Format) (n : ℕ)

/-- What the one rounding of a `RAW2MS2` adds to the numerator `n · gNum` (42_fmac.md R100). -/
def roundError : ℤ := roundBits f (n * gNum f) - (n * gNum f : ℕ)

/-- The number of bits of the numerator that do not fit the significand. -/
def droppedBits : ℕ := (n * gNum f).log2 - fracBits f

theorem add_roundError : (n * gNum f : ℤ) + roundError f n = roundBits f (n * gNum f) := by
  rw [roundError]
  push_cast
  ring

/-- The error is at most half of what the dropped bits can hold. -/
theorem two_mul_abs_roundError_le : 2 * |roundError f n| ≤ 2 ^ droppedBits f n :=
  roundBits_close f (n * gNum f)

/-- Rounding clears the dropped bits. -/
theorem dvd_add_roundError : (2 ^ droppedBits f n : ℤ) ∣ n * gNum f + roundError f n := by
  rw [add_roundError, roundBits, droppedBits]
  push_cast
  exact Dvd.intro_left _ rfl

variable {f n}

theorem droppedBits_le {k : ℕ} (h : n * gNum f < 2 ^ (fracBits f + k + 1)) : droppedBits f n ≤ k := by
  rw [droppedBits]
  rcases eq_or_ne (n * gNum f) 0 with zero | nonzero
  · rw [zero, Nat.log2_zero]
    omega
  · have log := (Nat.log2_lt nonzero).mpr h
    omega

/-- With at most `k + 1` bits dropped the error is at most `2^k`. -/
theorem roundError_le {k : ℕ} (h : droppedBits f n ≤ k + 1) :
    -2 ^ k ≤ roundError f n ∧ roundError f n ≤ 2 ^ k := by
  have close := (two_mul_abs_roundError_le f n).trans (pow_le_pow_right₀ one_le_two h)
  rw [pow_succ'] at close
  exact abs_le.mp (le_of_mul_le_mul_left close two_pos)

variable (f)

/-- The magnitude of the result is the exact product and the error, over the denominator. -/
theorem absVal_facc3_eq (a : Half) : absVal f (facc3 f a) =
    ((a.toInt.natAbs * gNum f + roundError f a.toInt.natAbs : ℤ) : ℚ) / 2 ^ (gDen f + 12) := by
  rw [add_roundError, absVal_facc3, zpow_neg, ← Nat.cast_ofNat (n := 12), ← Nat.cast_add, zpow_natCast,
    ← div_eq_mul_inv, Int.cast_natCast]

/-- How much too large `K_G_F` is, in units of `10^-5 / 2^gDen` (42_fmac.md R94). -/
def gError : ℤ := 100000 * gNum f - 980665 * 2 ^ gDen f

theorem gError_binary32 : gError .binary32 = 8480 := by decide

theorem gError_binary64 : gError .binary64 = -32480 := by decide

/-- A distance from the result, the common sign put aside. -/
theorem abs_val_facc3_sub (a : Half) (q : ℚ) :
    |val f (facc3 f a) - signOf a.msb * q| = |absVal f (facc3 f a) - q| := by
  rw [val_facc3, abs_signOf_mul_sub]

/-- The magnitudes of the amounts. -/
theorem natAbs_le_of_inRange {a : Half} (ha : inRange a) : a.toInt.natAbs ≤ 8192 := by
  obtain ⟨low, high⟩ := ha
  omega

end RoundError

/-! ### The distance from the real-number formula (42_fmac.md R105) -/

section Accuracy
variable {n : ℕ}

/-- At most 12 bits are dropped of an amount's product in binary32. -/
theorem droppedBits_binary32 (hn : n ≤ 8192) : droppedBits .binary32 n ≤ 12 :=
  droppedBits_le (by simp only [gNum, fracBits]; omega)

/-- At most 13 bits are dropped of an amount's product in binary64. -/
theorem droppedBits_binary64 (hn : n ≤ 8192) : droppedBits .binary64 n ≤ 13 :=
  droppedBits_le (by simp only [gNum, fracBits]; omega)

/-- The greatest roundings up of binary32, `2048 - t` for small `t`, each come at one amount modulo 4096,
too early for the error of the constant to add much. -/
theorem late_roundings_binary32 : ∀ t < 37, (2253 * t + 2048) % 4096 ≠ 0 ∧
    100000 * (2048 - t) + 8480 * ((2253 * t + 2048) % 4096 + 4096) ≤ 270663680 := by
  decide

/-- The same of the greatest roundings down of binary64, `-4096 + t`, and amounts modulo 8192. -/
theorem late_roundings_binary64 : ∀ t < 77, (3635 * t + 4096) % 8192 ≠ 0 ∧
    100000 * (4096 - t) + 32480 * ((3635 * t + 4096) % 8192) ≤ 668694472 := by
  decide

theorem le_mod_add (h : n % 4096 ≠ 0) (hn : n ≤ 8192) : n ≤ n % 4096 + 4096 := by omega

theorem mod_eq_self (h : n % 8192 ≠ 0) (hn : n ≤ 8192) : n % 8192 = n := by omega

/-- The error of binary32, in units of `10^-5 / 2^31`: that of the rounding, and that of the constant for
each step of the amount. -/
theorem error_binary32 (hn : n ≤ 8192) :
    -270663680 ≤ 100000 * roundError .binary32 n + 8480 * n ∧
    100000 * roundError .binary32 n + 8480 * n ≤ 270663680 := by
  have few := droppedBits_binary32 hn
  obtain ⟨low, high⟩ := roundError_le few
  refine ⟨by omega, ?_⟩
  by_contra above
  obtain ⟨t, ht⟩ := Int.eq_ofNat_of_zero_le (show 0 ≤ 2048 - roundError .binary32 n by omega)
  have most : droppedBits .binary32 n = 12 := by
    by_contra fewer
    obtain ⟨-, less⟩ := roundError_le (f := .binary32) (n := n) (k := 10) (by omega)
    omega
  obtain ⟨q, hq⟩ := most ▸ dvd_add_roundError .binary32 n
  rw [gNum] at hq
  have solved : (n : ℤ) = 2253 * t + 2048 + 4096 * (2253 * q - 1127 - 2828081 * n) := by omega
  have amount : n % 4096 = (2253 * t + 2048) % 4096 := by omega
  obtain ⟨nonzero, table⟩ := late_roundings_binary32 t (by omega)
  rw [← amount] at nonzero table
  have late := le_mod_add nonzero hn
  clear hq solved amount
  omega

/-- The error of binary64, in units of `10^-5 / 2^61`. -/
theorem error_binary64 (hn : n ≤ 8192) :
    -668694472 ≤ 100000 * roundError .binary64 n + -32480 * n ∧
    100000 * roundError .binary64 n + -32480 * n ≤ 668694472 := by
  have few := droppedBits_binary64 hn
  obtain ⟨low, high⟩ := roundError_le few
  refine ⟨?_, by omega⟩
  by_contra below
  obtain ⟨t, ht⟩ := Int.eq_ofNat_of_zero_le (show 0 ≤ roundError .binary64 n + 4096 by omega)
  have most : droppedBits .binary64 n = 13 := by
    by_contra fewer
    obtain ⟨less, -⟩ := roundError_le (f := .binary64) (n := n) (k := 11) (by omega)
    omega
  obtain ⟨q, hq⟩ := most ▸ dvd_add_roundError .binary64 n
  rw [gNum] at hq
  have solved : (n : ℤ) = 3635 * t + 4096 + 8192 * (2449655058497798 * n - 3635 * q - 1818) := by omega
  have amount : n % 8192 = (3635 * t + 4096) % 8192 := by omega
  obtain ⟨nonzero, table⟩ := late_roundings_binary64 t (by omega)
  rw [← amount] at nonzero table
  rw [mod_eq_self nonzero hn] at table
  omega

/-- The real-number formula, its sign put aside (42_fmac.md R105). -/
theorem formula_eq (a : Half) : (a.toInt : ℚ) * (980665 / 100000) / 4096 =
    signOf a.msb * (a.toInt.natAbs * 980665 / 409600000) := by
  rw [← signOf_mul_natAbs]
  ring

/-- The magnitude of the result against the formula: the error of the rounding and that of the constant. -/
theorem absVal_sub_formula (f : Format) (a : Half) :
    absVal f (facc3 f a) - a.toInt.natAbs * 980665 / 409600000 =
      (100000 * roundError f a.toInt.natAbs + gError f * a.toInt.natAbs : ℤ) /
        (2 ^ (gDen f + 12) * 100000) := by
  rw [absVal_facc3_eq, gError]
  generalize a.toInt.natAbs = n
  rw [div_sub_div _ _ (by positivity) (by norm_num), div_eq_div_iff (by positivity) (by positivity), pow_add]
  push_cast
  ring

/-- A fraction is bounded as its numerator is. -/
theorem abs_div_le {z b : ℤ} {c q : ℚ} (hc : 0 < c) (h : -b ≤ z ∧ z ≤ b) (hq : b ≤ q * c) :
    |(z : ℚ) / c| ≤ q := by
  have bound : |(z : ℚ)| ≤ b := mod_cast abs_le.mpr h
  rw [abs_div, abs_of_pos hc, div_le_iff₀ hc]
  exact bound.trans hq

end Accuracy

/-! ### The integer result (43_simul.md R113 to R117, R120) -/

section IntegerResult
variable (a : Half)

/-- The magnitude of the integer result: that of the product, divided and rounded down. -/
def absMms2 (n : ℕ) : ℕ := n * 980665 / 40960

/-- Truncation rounds the magnitude down and keeps the sign (43_simul.md R116). -/
theorem closedMms2_eq (n : ℤ) :
    closedMms2 n = if n < 0 then -(absMms2 n.natAbs : ℤ) else absMms2 n.natAbs := by
  rw [closedMms2, absMms2]
  split
  next h =>
    rw [show n * 980665 = -(n.natAbs * 980665 : ℕ) by omega, Int.neg_tdiv,
      Int.tdiv_eq_ediv_of_nonneg (by omega)]
    rfl
  next h =>
    rw [show n * 980665 = (n.natAbs * 980665 : ℕ) by omega, Int.tdiv_eq_ediv_of_nonneg (by omega)]
    rfl

/-- The product of an amount and `K_NUM` is far inside 64 bits. -/
theorem prodOf_toInt : (prodOf a).toInt = a.toInt * 980665 := by
  have low := BitVec.le_toInt a
  have high := BitVec.toInt_lt (x := a)
  have widened : (widen a).toInt = a.toInt := BitVec.toInt_signExtend_of_le (by decide)
  have factor : (BitVec.ofInt 64 kNum).toInt = 980665 := by decide
  rw [prodOf, product, BitVec.toInt_mul, widened, factor]
  exact Int.bmod_eq_of_le_mul_two (by omega) (by omega)

/-- The quotient is far inside 32 bits, so `IRES` is the truncated quotient itself (43_simul.md R120). -/
theorem iresOf_toInt : (iresOf a).toInt = closedMms2 a.toInt := by
  have magnitude := natAbs_toInt_le a
  have small : -784532 ≤ closedMms2 a.toInt ∧ closedMms2 a.toInt ≤ 784532 := by
    rw [closedMms2_eq, absMms2]
    split <;> omega
  have fits : (quotient (prodOf a)).toInt = closedMms2 a.toInt := by
    rw [quotient, prodOf_toInt, kDen, BitVec.toInt_ofInt, ← closedMms2]
    exact Int.bmod_eq_of_le_mul_two (by omega) (by omega)
  have low32 : (2 ^ 32 : ℕ) ∣ 2 ^ 64 := Nat.pow_dvd_pow 2 (by decide)
  rw [iresOf, narrow, ← BitVec.setWidth_eq_extractLsb' (by decide), BitVec.toInt_setWidth,
    ← Int.bmod_bmod_of_dvd low32, ← BitVec.toInt_eq_toNat_bmod, fits]
  exact Int.bmod_eq_of_le_mul_two (by omega) (by omega)

/-- The integer result as a sign and a magnitude. -/
theorem iresOf_eq : ((iresOf a).toInt : ℚ) = signOf a.msb * absMms2 a.toInt.natAbs := by
  rw [iresOf_toInt, closedMms2_eq, BitVec.msb_eq_toInt]
  by_cases h : a.toInt < 0 <;> simp [h]

theorem iresOf_zero : (iresOf 0#16).toInt = 0 := by decide

end IntegerResult

/-! ### The float result against the integer result (42_fmac.md R109) -/

section CrossCheck
variable {n : ℕ}

/-- What the division of the magnitude leaves, in units of `10^-4 / 40960`. -/
def remainderMms2 (n : ℕ) : ℕ := n * 980665 % 40960

theorem absMms2_add_remainder (n : ℕ) : 40960 * absMms2 n + remainderMms2 n = n * 980665 :=
  Nat.div_add_mod _ _

theorem remainderMms2_le (n : ℕ) : remainderMms2 n ≤ 40955 := by
  rw [remainderMms2]
  omega

/-- The greatest remainders, `5 * (8191 - t)` for small `t`, each come at one amount. -/
theorem amount_of_remainder (hn : n ≤ 8192) (h : 5 * 8144 < remainderMms2 n) :
    ∃ t < 47, remainderMms2 n = 5 * (8191 - t) ∧ n = 4691 * (t + 1) % 8192 := by
  have most := remainderMms2_le n
  have whole := absMms2_add_remainder n
  obtain ⟨t, ht⟩ : ∃ t, remainderMms2 n + 5 * t = 5 * 8191 := ⟨8191 - remainderMms2 n / 5, by omega⟩
  have notLast : n ≠ 8192 := by
    rintro rfl
    exact absurd h (by decide)
  have solved : (n : ℤ) =
      4691 * (t + 1) + 8192 * (3501 * absMms2 n + 3501 - 83821 * n - (t + 1)) := by omega
  have amount : n % 8192 = 4691 * (t + 1) % 8192 := by omega
  exact ⟨t, by omega, by omega, amount ▸ (Nat.mod_eq_of_lt (by omega)).symm⟩

/-- The error of binary32 and the remainder at these amounts, in units of `10^-5 / 2^31`. -/
theorem late_remainders_binary32 : ∀ t < 47,
    100000 * roundError .binary32 (4691 * (t + 1) % 8192) + 8480 * (4691 * (t + 1) % 8192 : ℕ) +
      2 ^ 19 * (5 * (8191 - t) : ℕ) ≤ 21620326400 := by
  decide

/-- The error of binary64 and the remainder at the amount with the greatest one, in units of
`10^-5 / 2^61`. -/
theorem last_remainder_binary64 :
    100000 * roundError .binary64 4691 + -32480 * 4691 + 2 ^ 49 * 40955 ≤ 23055615342104661013 := by
  decide

/-- The distance between the results in binary32, in units of `10^-5 / 2^31`. -/
theorem crossCheck_binary32 (hn : n ≤ 8192) :
    -21620326400 ≤ 100000 * roundError .binary32 n + 8480 * n + 2 ^ 19 * remainderMms2 n ∧
    100000 * roundError .binary32 n + 8480 * n + 2 ^ 19 * remainderMms2 n ≤ 21620326400 := by
  obtain ⟨low, high⟩ := error_binary32 hn
  refine ⟨by omega, ?_⟩
  rcases Nat.lt_or_ge (5 * 8144) (remainderMms2 n) with late | early
  · obtain ⟨t, ht, remainder, amount⟩ := amount_of_remainder hn late
    have table := late_remainders_binary32 t ht
    rwa [← amount, ← remainder] at table
  · omega

/-- The distance between the results in binary64, in units of `10^-5 / 2^61`. -/
theorem crossCheck_binary64 (hn : n ≤ 8192) :
    -23055615342104661013 ≤ 100000 * roundError .binary64 n + -32480 * n + 2 ^ 49 * remainderMms2 n ∧
    100000 * roundError .binary64 n + -32480 * n + 2 ^ 49 * remainderMms2 n ≤
      23055615342104661013 := by
  obtain ⟨low, high⟩ := error_binary64 hn
  refine ⟨by omega, ?_⟩
  rcases Nat.lt_or_ge (5 * 8190) (remainderMms2 n) with late | early
  · have most := remainderMms2_le n
    obtain ⟨t, -, remainder, amount⟩ := amount_of_remainder hn (by omega)
    obtain rfl : t = 0 := by omega
    rw [remainder, amount]
    exact last_remainder_binary64
  · omega

/-- The magnitudes of the two results: the error of the float one and what the division left. -/
theorem absVal_sub_absMms2 (f : Format) (a : Half) :
    absVal f (facc3 f a) - absMms2 a.toInt.natAbs / 10000 =
      (100000 * roundError f a.toInt.natAbs + gError f * a.toInt.natAbs +
        2 ^ gDen f * remainderMms2 a.toInt.natAbs : ℤ) / (2 ^ (gDen f + 12) * 100000) := by
  have formula := absVal_sub_formula f a
  generalize a.toInt.natAbs = n at *
  have whole : (40960 * absMms2 n + remainderMms2 n : ℚ) = n * 980665 := mod_cast absMms2_add_remainder n
  have quotient : (absMms2 n : ℚ) / 10000 = n * 980665 / 409600000 - remainderMms2 n / 409600000 := by
    linarith
  rw [quotient, sub_sub_eq_add_sub, add_sub_right_comm, formula, div_add_div _ _ (by positivity) (by norm_num),
    div_eq_div_iff (by positivity) (by positivity), pow_add]
  push_cast
  ring

/-- The integer result divided by a number, its sign put aside. -/
theorem iresOf_div (a : Half) (d : ℚ) :
    ((iresOf a).toInt : ℚ) / d = signOf a.msb * (absMms2 a.toInt.natAbs / d) := by
  rw [iresOf_eq, mul_div_assoc]

/-- With the divisor 1000 the integer result is about ten times the float one, which no amount but 0 can
make up for (90_conflicts.md C2). -/
theorem thousandth_close_iff (f : Format) (a : Half) :
    |val f (facc3 f a) - (iresOf a).toInt / 1000| < 15 / 10000 ↔ a = 0#16 := by
  constructor
  · intro close
    by_contra h0
    rw [iresOf_div, abs_val_facc3_sub, abs_lt] at close
    have high := (absVal_facc3_bounds f a).2
    have nonzero : a.toInt ≠ 0 := fun h => h0 (BitVec.eq_of_toInt_eq h)
    have steps : (23 * a.toInt.natAbs : ℚ) ≤ absMms2 a.toInt.natAbs := by
      exact_mod_cast (by rw [absMms2]; omega : 23 * a.toInt.natAbs ≤ absMms2 a.toInt.natAbs)
    have one : (1 : ℚ) ≤ a.toInt.natAbs := by exact_mod_cast (by omega : 1 ≤ a.toInt.natAbs)
    linarith
  · rintro rfl
    rw [facc3_zero, val_zero, iresOf_zero]
    norm_num

end CrossCheck

end Sys2Proof.Machine

namespace Sys2Proof.Proofs
open Sys2Proof.Machine

/-- Settles O26: the error of the constant and the error of the rounding, as integers. -/
theorem ms2Accuracy : Obligations.Ms2Accuracy := by
  intro a ha
  have hn := natAbs_le_of_inRange ha
  rw [formula_eq, abs_val_facc3_sub, abs_val_facc3_sub, absVal_sub_formula, absVal_sub_formula,
    gError_binary32, gError_binary64, gDen, gDen]
  exact ⟨abs_div_le (by norm_num) (error_binary32 hn) (by norm_num),
    abs_div_le (by norm_num) (error_binary64 hn) (by norm_num)⟩

/-- Settles O27: the errors of the float result and the remainder of the division, as integers. -/
theorem floatIntegerCrossCheck : Obligations.FloatIntegerCrossCheck := by
  intro a ha
  have hn := natAbs_le_of_inRange ha
  refine ⟨?_, ?_, thousandth_close_iff .binary32 a, thousandth_close_iff .binary64 a⟩
  · rw [iresOf_div, abs_val_facc3_sub, absVal_sub_absMms2, gError_binary32, gDen]
    exact abs_div_le (by norm_num) (crossCheck_binary32 hn) (by norm_num)
  · rw [iresOf_div, abs_val_facc3_sub, absVal_sub_absMms2, gError_binary64, gDen]
    exact abs_div_le (by norm_num) (crossCheck_binary64 hn) (by norm_num)

end Sys2Proof.Proofs
end

section
/-!
PROOFS. The amounts at which the exact product is a rounding tie (42_fmac.md R95).
-/

namespace Sys2Proof.Machine

section Tie
variable {f : Format} {n : ℕ}

/-- An odd multiple of `2^j`, against the next power of two, leaves exactly a half. -/
theorem odd_mul_two_pow_mod {o j : ℕ} (h : o % 2 = 1) : o * 2 ^ j % 2 ^ (j + 1) = 2 ^ j := by
  rw [Nat.pow_succ', Nat.mul_mod_mul_right, h, Nat.one_mul]

/-- A number that leaves exactly a half of `2^(j + 1)` is an odd multiple of `2^j`. -/
theorem exists_odd_of_mod {m j : ℕ} (h : m % 2 ^ (j + 1) = 2 ^ j) :
    ∃ o, m = o * 2 ^ j ∧ o % 2 = 1 := by
  refine ⟨2 * (m / 2 ^ (j + 1)) + 1, ?_, by omega⟩
  calc m
    _ = 2 ^ (j + 1) * (m / 2 ^ (j + 1)) + 2 ^ j := by rw [← h, Nat.div_add_mod]
    _ = (2 * (m / 2 ^ (j + 1)) + 1) * 2 ^ j := by ring

/-- The bits dropped of `n · gNum` are a one and zeros exactly where `n` is a power of two times an odd number
whose own product is one bit too long. -/
theorem tie_iff (hn : n ≠ 0) :
    2 * (n * gNum f % 2 ^ droppedBits f n) = 2 ^ droppedBits f n ↔
      ∃ o j, n = o * 2 ^ j ∧ o % 2 = 1 ∧ 2 ^ (fracBits f + 1) ≤ o * gNum f ∧
        o * gNum f < 2 ^ (fracBits f + 2) := by
  have odd := gNum_odd f
  have nonzero : n * gNum f ≠ 0 := Nat.mul_ne_zero hn (by omega)
  constructor
  · intro tie
    obtain ⟨j, hj⟩ : ∃ j, droppedBits f n = j + 1 := by
      refine Nat.exists_eq_succ_of_ne_zero fun zero => ?_
      rw [zero, Nat.pow_zero] at tie
      omega
    rw [hj, Nat.pow_succ', Nat.mul_right_inj two_ne_zero, ← Nat.pow_succ'] at tie
    obtain ⟨p, hp, hpOdd⟩ := exists_odd_of_mod tie
    have coprime : Nat.Coprime (2 ^ j) (gNum f) :=
      ((Nat.coprime_two_left).mpr (Nat.odd_iff.mpr odd)).pow_left j
    obtain ⟨o, rfl⟩ : 2 ^ j ∣ n := coprime.dvd_of_dvd_mul_right (hp ▸ Nat.dvd_mul_left _ _)
    have product : o * gNum f = p := by
      rw [Nat.mul_assoc, Nat.mul_comm p] at hp
      exact Nat.eq_of_mul_eq_mul_left (Nat.two_pow_pos j) hp
    have log : (p * 2 ^ j).log2 = fracBits f + 1 + j := by
      rw [droppedBits, hp] at hj
      omega
    have pos : p ≠ 0 := by omega
    rw [log2_mul_two_pow pos, Nat.add_left_inj, Nat.log2_eq_iff pos] at log
    obtain ⟨low, high⟩ := log
    refine ⟨o, j, Nat.mul_comm _ _, ?_, product ▸ low, product ▸ high⟩
    rw [← product, Nat.mul_mod, odd] at hpOdd
    omega
  · rintro ⟨o, j, rfl, hOdd, low, high⟩
    have productOdd : o * gNum f % 2 = 1 := by rw [Nat.mul_mod, hOdd, odd]
    have pos : o * gNum f ≠ 0 := by omega
    have log : (o * gNum f).log2 = fracBits f + 1 := (Nat.log2_eq_iff pos).mpr ⟨low, high⟩
    have dropped : droppedBits f (o * 2 ^ j) = j + 1 := by
      rw [droppedBits, Nat.mul_right_comm, log2_mul_two_pow pos, log]
      omega
    rw [dropped, Nat.mul_right_comm, odd_mul_two_pow_mod productOdd, Nat.pow_succ']

/-- The powers of two times `o` up to 8192 as a list. -/
theorem exists_mul_two_pow_iff {o k : ℕ} (hn : n ≤ 8192) (ho : 8192 < o * 2 ^ k) :
    (∃ j, n = o * 2 ^ j) ↔ n ∈ (List.range k).map (fun j => o * 2 ^ j) := by
  rw [List.mem_map]
  constructor
  · rintro ⟨j, rfl⟩
    have less : 2 ^ j < 2 ^ k := Nat.lt_of_mul_lt_mul_left (hn.trans_lt ho)
    exact ⟨j, List.mem_range.mpr ((Nat.pow_lt_pow_iff_right (by decide)).mp less), rfl⟩
  · rintro ⟨j, -, rfl⟩
    exact ⟨j, rfl⟩

/-- The ties are the powers of two times `o`, where `o` is the one odd number whose product is one bit too
long. -/
theorem tie_iff_mul_two_pow {o : ℕ} (hn : n ≠ 0) (only : ∀ p, (p % 2 = 1 ∧
      2 ^ (fracBits f + 1) ≤ p * gNum f ∧ p * gNum f < 2 ^ (fracBits f + 2)) ↔ p = o) :
    2 * (n * gNum f % 2 ^ droppedBits f n) = 2 ^ droppedBits f n ↔ ∃ j, n = o * 2 ^ j := by
  rw [tie_iff hn]
  constructor
  · rintro ⟨p, j, rfl, hp⟩
    exact ⟨j, by rw [(only p).mp hp]⟩
  · rintro ⟨j, rfl⟩
    exact ⟨o, j, rfl, (only o).mpr rfl⟩

/-- In binary32 that number is 5. -/
theorem tie_binary32_iff (hn : n ≠ 0) :
    2 * (n * gNum .binary32 % 2 ^ droppedBits .binary32 n) = 2 ^ droppedBits .binary32 n ↔
      ∃ j, n = 5 * 2 ^ j :=
  tie_iff_mul_two_pow hn fun p => by simp only [gNum, fracBits]; omega

/-- In binary64 it is 3. -/
theorem tie_binary64_iff (hn : n ≠ 0) :
    2 * (n * gNum .binary64 % 2 ^ droppedBits .binary64 n) = 2 ^ droppedBits .binary64 n ↔
      ∃ j, n = 3 * 2 ^ j :=
  tie_iff_mul_two_pow hn fun p => by simp only [gNum, fracBits]; omega

end Tie

end Sys2Proof.Machine

namespace Sys2Proof.Proofs
open Sys2Proof.Machine

/-- Settles O29: the amounts are the powers of two times 5, and times 3. -/
theorem tieAmounts : Obligations.TieAmounts := by
  refine ⟨fun n pos hn => ?_, fun n pos hn => ?_, by decide⟩
  · exact (tie_binary32_iff (by omega)).trans (exists_mul_two_pow_iff (k := 11) hn (by decide))
  · exact (tie_binary64_iff (by omega)).trans (exists_mul_two_pow_iff (k := 12) hn (by decide))

end Sys2Proof.Proofs
end

section
/-!
PROOFS. Neighbouring images, how far apart two numbers must be that round to images more than one apart, and with
it the reading of 42_fmac.md R107 that the spec does not take.
-/

namespace Sys2Proof.Machine

/-! ### Neighbouring images -/

section Neighbours
variable {f : Format} {s : Bool}

/-- The magnitude of the normal image whose bits below the sign are the number `mag`. -/
def magVal (f : Format) (mag : ℕ) : ℚ :=
  (2 ^ fracBits f + (mag % 2 ^ fracBits f : ℕ)) * 2 ^ ((mag / 2 ^ fracBits f : ℕ) - (bias f : ℤ) - fracBits f)

/-- The unit in the last place of that image. -/
def magUnit (f : Format) (mag : ℕ) : ℚ := 2 ^ ((mag / 2 ^ fracBits f : ℕ) - (bias f : ℤ) - fracBits f)

theorem magUnit_pos (mag : ℕ) : 0 < magUnit f mag := zpow_pos two_pos _

/-- The next image is one unit greater, where the fraction field overflows too. -/
theorem magVal_succ (mag : ℕ) : magVal f (mag + 1) = magVal f mag + magUnit f mag := by
  have split := Nat.div_add_mod mag (2 ^ fracBits f)
  have below := Nat.mod_lt mag (Nat.two_pow_pos (fracBits f))
  rw [magVal, magVal, magUnit]
  generalize mag / 2 ^ fracBits f = e at *
  generalize mag % 2 ^ fracBits f = t at *
  rw [← split]
  rcases Nat.lt_or_ge (t + 1) (2 ^ fracBits f) with h | h
  · rw [Nat.add_assoc, Nat.mul_add_div (Nat.two_pow_pos _), Nat.div_eq_of_lt h, Nat.mul_add_mod,
      Nat.mod_eq_of_lt h, Nat.add_zero e, Nat.cast_succ, ← add_assoc, add_one_mul]
  · have full : t + 1 = 2 ^ fracBits f := by omega
    have fullQ : (t : ℚ) + 1 = 2 ^ fracBits f := mod_cast full
    have exponent : ((e + 1 : ℕ) : ℤ) - bias f - fracBits f = (e : ℤ) - bias f - fracBits f + 1 := by
      push_cast
      ring
    rw [Nat.add_assoc, full, ← Nat.mul_succ, Nat.mul_div_cancel_left _ (Nat.two_pow_pos _), Nat.mul_mod_right,
      exponent, two_zpow_succ, ← fullQ]
    push_cast
    ring

theorem magVal_strictMono : StrictMono (magVal f) :=
  strictMono_nat_of_lt_succ fun mag => by
    rw [magVal_succ]
    exact lt_add_of_pos_right _ (magUnit_pos mag)

theorem magUnit_mono : Monotone (magUnit f) := by
  intro m m' h
  refine zpow_le_zpow_right₀ one_le_two ?_
  have exponents := Nat.div_le_div_right (c := 2 ^ fracBits f) h
  omega

/-- A significand has at most `p` bits. -/
theorem magVal_lt (mag : ℕ) : magVal f mag < 2 ^ (fracBits f + 1) * magUnit f mag := by
  refine mul_lt_mul_of_pos_right ?_ (magUnit_pos mag)
  rw [pow_succ', two_mul]
  gcongr
  exact_mod_cast Nat.mod_lt _ (Nat.two_pow_pos _)

/-- The numbers whose images are normal. -/
def NormalMag (f : Format) (mag : ℕ) : Prop :=
  2 ^ fracBits f ≤ mag ∧ mag < (2 ^ expBits f - 1) * 2 ^ fracBits f

variable {mag A B : ℕ}

/-- A normal magnitude in its two fields. -/
theorem NormalMag.fields (h : NormalMag f mag) :
    ∃ e t, mag = e * 2 ^ fracBits f + t ∧ 1 ≤ e ∧ e + 1 < 2 ^ expBits f ∧ t < 2 ^ fracBits f ∧
      e = mag / 2 ^ fracBits f ∧ t = mag % 2 ^ fracBits f := by
  obtain ⟨low, high⟩ := h
  have pos := Nat.two_pow_pos (fracBits f)
  have top := (Nat.div_lt_iff_lt_mul pos).mpr high
  rw [Nat.lt_sub_iff_add_lt] at top
  exact ⟨_, _, (Nat.div_add_mod' mag _).symm, (Nat.one_le_div_iff pos).mpr low, top, Nat.mod_lt _ pos, rfl,
    rfl⟩

theorem NormalMag.isOperand (h : NormalMag f mag) : isOperand f (image f s mag) = true := by
  obtain ⟨e, t, rfl, hpos, hlt, ht, -, -⟩ := h.fields
  exact isOperand_image s hpos hlt ht

theorem NormalMag.val (h : NormalMag f mag) : val f (image f s mag) = signOf s * magVal f mag := by
  obtain ⟨e, t, hmag, hpos, hlt, ht, he, ht'⟩ := h.fields
  rw [val_eq, hmag, signBit_image (Nat.lt_of_succ_lt hlt) ht, absVal_image s hpos hlt ht, ← hmag, magVal,
    ← he, ← ht']

theorem NormalMag.toNat (h : NormalMag f mag) :
    (image f s mag).toNat = (if s then 2 ^ (fracBits f + expBits f) else 0) + mag := by
  obtain ⟨e, t, rfl, hpos, hlt, ht, -, -⟩ := h.fields
  rw [image_toNat (Nat.lt_of_succ_lt hlt) ht, Nat.pow_add]
  cases s with
  | false => rw [if_neg Bool.false_ne_true, if_neg Bool.false_ne_true, Nat.zero_add, Nat.zero_add,
      Nat.mul_comm]
  | true => rw [if_pos rfl, if_pos rfl, Nat.mul_add, Nat.add_assoc, Nat.mul_comm _ e]

/-- Two numbers that round to images more than one apart are more than a unit apart: the image between them is
nearer to neither (42_fmac.md R95). -/
theorem le_succ_of_nearest (hA : NormalMag f A) (hB : NormalMag f B) {p q : ℚ}
    (nearA : IsNearestEven f (signOf s * p) (image f s A))
    (nearB : IsNearestEven f (signOf s * q) (image f s B))
    (close : (q - p) * 2 ^ (fracBits f + 1) < magVal f A) : B ≤ A + 1 := by
  by_contra apart
  have hC : NormalMag f (A + 1) := by
    obtain ⟨low, -⟩ := hA
    obtain ⟨-, high⟩ := hB
    exact ⟨by omega, by omega⟩
  obtain ⟨-, nearestA, -⟩ := nearA
  obtain ⟨-, nearestB, -⟩ := nearB
  have fromA := nearestA (image f s (A + 1)) hC.isOperand
  have fromB := nearestB (image f s (A + 1)) hC.isOperand
  rw [hA.val, hC.val, abs_signOf_mul_sub, abs_signOf_mul_sub] at fromA
  rw [hB.val, hC.val, abs_signOf_mul_sub, abs_signOf_mul_sub] at fromB
  have unitA := magVal_succ (f := f) A
  have unitC := magVal_succ (f := f) (A + 1)
  have units := magUnit_mono (f := f) (Nat.le_succ A)
  have pos := magUnit_pos (f := f) A
  have farB := magVal_strictMono (f := f).monotone (show A + 1 + 1 ≤ B by omega)
  have midA : p ≤ (magVal f A + magVal f (A + 1)) / 2 := by
    by_contra above
    rw [abs_of_nonpos (by linarith)] at fromA
    have nearer : |magVal f (A + 1) - p| < p - magVal f A := abs_lt.mpr ⟨by linarith, by linarith⟩
    linarith
  have midB : (magVal f (A + 1) + magVal f B) / 2 ≤ q := by
    by_contra below
    rw [abs_of_nonneg (by linarith)] at fromB
    have nearer : |magVal f (A + 1) - q| < magVal f B - q := abs_lt.mpr ⟨by linarith, by linarith⟩
    linarith
  have gap : magUnit f A ≤ q - p := by linarith
  have size := magVal_lt (f := f) A
  have wide := mul_le_mul_of_nonneg_right gap (by positivity : (0 : ℚ) ≤ 2 ^ (fracBits f + 1))
  linarith

/-- The magnitude bits of an answer of `rnd`. -/
theorem exists_normalMag_of_rnd {m : ℕ} {x : ℤ} {r : BitVec f.flen} (hm : m ≠ 0)
    (h : rnd f s m x = some r) : ∃ mag, NormalMag f mag ∧ r = image f s mag := by
  obtain ⟨e, -, hpos, hlt, rfl⟩ := (rnd_eq_some_iff hm).mp h
  exact ⟨_, ⟨le_add_right (Nat.le_mul_of_pos_left _ hpos), hlt⟩, rfl⟩

/-- Two answers of `rnd` for numbers of one sign that are close are one unit in the last place apart at most. -/
theorem toNat_le_succ_of_rnd {m m' : ℕ} {x x' : ℤ} {r r' : BitVec f.flen} (hm : m ≠ 0) (hm' : m' ≠ 0)
    (h : rnd f s m x = some r) (h' : rnd f s m' x' = some r')
    (close : ((m' : ℚ) * 2 ^ x' - m * 2 ^ x) * 2 ^ (fracBits f + 1) < absVal f r) :
    r'.toNat ≤ r.toNat + 1 := by
  obtain ⟨A, hA, rfl⟩ := exists_normalMag_of_rnd hm h
  obtain ⟨B, hB, rfl⟩ := exists_normalMag_of_rnd hm' h'
  have size : absVal f (image f s A) = magVal f A := by
    rw [← abs_val, hA.val, abs_mul, abs_signOf, one_mul, abs_of_nonneg]
    exact mul_nonneg (by positivity) (zpow_nonneg zero_le_two _)
  have next := le_succ_of_nearest hA hB (isNearestEven_of_rnd h) (isNearestEven_of_rnd h') (size ▸ close)
  rw [hA.toNat, hB.toNat]
  omega

end Neighbours

/-! ### A binary64 product narrowed to binary32 (42_fmac.md R107) -/

section Narrow
variable (a : Half)

/-- The second rounding of the reading, of whatever the first one answers. -/
def narrowAnswer (o : Option (BitVec 64)) : Option (BitVec 32) :=
  match o with
  | some r => rnd .binary32 (signBit .binary64 r) (significand .binary64 r) (scale .binary64 r)
  | none => none

/-- By definition; stated so that no proof has the kernel evaluate `closedMs2` at an unknown amount. -/
theorem narrowAtEnd_eq (n : ℤ) : narrowAtEnd n = narrowAnswer (closedMs2 .binary64 n) := rfl

theorem narrowAnswer_some (r : BitVec 64) : narrowAnswer (some r) =
    rnd .binary32 (signBit .binary64 r) (significand .binary64 r) (scale .binary64 r) := rfl

/-- The reading rounds the binary64 result once more. -/
theorem narrowAtEnd_toInt : narrowAtEnd a.toInt = rnd .binary32 a.msb
    (significand .binary64 (facc3 .binary64 a)) (scale .binary64 (facc3 .binary64 a)) := by
  rw [narrowAtEnd_eq, closedMs2_toInt, narrowAnswer_some, signBit_facc3]

/-- The binary64 result against the exact binary32 product: the constants differ by less than `1.7 · 10^-7`. -/
theorem absVal_binary64_close :
    |absVal .binary64 (facc3 .binary64 a) - exactMs2 .binary32 a.toInt.natAbs| ≤
      44 / 10 ^ 12 * a.toInt.natAbs := by
  have relative := absVal_facc3_relative .binary64 a
  have nonneg : (0 : ℚ) ≤ a.toInt.natAbs := Nat.cast_nonneg _
  rw [exactMs2_eq, ← le_div_iff₀ (by positivity), abs_le] at relative
  rw [exactMs2_eq, abs_le]
  simp only [gNum, gDen, fracBits] at relative ⊢
  norm_num at relative ⊢
  constructor <;> linarith

/-- Where the amount is not 0 the reading answers, at most one unit in the last place from the result. -/
theorem narrowAtEnd_close {a : Half} (ha : inRange a) (h0 : a ≠ 0#16) : ∃ r, narrowAtEnd a.toInt = some r ∧
    r.toNat ≤ (facc3 .binary32 a).toNat + 1 ∧ (facc3 .binary32 a).toNat ≤ r.toNat + 1 := by
  have amount : a.toInt.natAbs ≠ 0 := fun h => h0 (BitVec.eq_of_toInt_eq (Int.natAbs_eq_zero.mp h))
  have one : (1 : ℚ) ≤ a.toInt.natAbs := by exact_mod_cast Nat.one_le_iff_ne_zero.mpr amount
  obtain ⟨low, high⟩ := absVal_facc3_range (f := .binary64) ha h0
  have steps64 := (absVal_facc3_bounds .binary64 a).1
  have steps32 := (absVal_facc3_bounds .binary32 a).1
  obtain ⟨below, above⟩ := abs_le.mp (absVal_binary64_close a)
  have sig : significand .binary64 (facc3 .binary64 a) ≠ 0 := by
    intro zero
    rw [absVal, zero, Nat.cast_zero, zero_mul] at low
    norm_num at low
  obtain ⟨r, hr⟩ := exists_rnd_of_moderate .binary32 a.msb (m := significand .binary64 (facc3 .binary64 a))
    (x := scale .binary64 (facc3 .binary64 a))
    (le_trans (by norm_num) low) (lt_of_le_of_lt high (by norm_num))
  have relative := absVal_of_rnd_relative hr
  have own : (significand .binary64 (facc3 .binary64 a) : ℚ) * 2 ^ scale .binary64 (facc3 .binary64 a) =
    absVal .binary64 (facc3 .binary64 a) := rfl
  rw [own, ← le_div_iff₀ (by positivity)] at relative
  have sizeR := (abs_le.mp relative).1
  have hg : a.toInt.natAbs * gNum .binary32 ≠ 0 := Nat.mul_ne_zero amount (by decide)
  refine ⟨r, (narrowAtEnd_toInt a).trans hr, ?_, ?_⟩
  · refine toNat_le_succ_of_rnd hg sig (rnd_facc3 .binary32 a) hr ?_
    rw [own, ← exactMs2]
    norm_num [fracBits]
    linarith
  · refine toNat_le_succ_of_rnd sig hg hr (rnd_facc3 .binary32 a) ?_
    rw [own, ← exactMs2]
    norm_num [fracBits] at sizeR ⊢
    linarith

/-- Below magnitude 17 the two readings agree. -/
theorem narrowAtEnd_small : ∀ k : Fin 33,
    narrowAtEnd ((k : ℤ) - 16) = some (facc3 .binary32 (BitVec.ofInt 16 ((k : ℤ) - 16))) := by
  decide

theorem narrowAtEnd_of_small {a : Half} (h : a.toInt.natAbs < 17) :
    narrowAtEnd a.toInt = some (facc3 .binary32 a) := by
  obtain ⟨k, hk⟩ := Int.eq_ofNat_of_zero_le (show 0 ≤ a.toInt + 16 by omega)
  have table := narrowAtEnd_small ⟨k, by omega⟩
  rwa [show ((k : ℕ) : ℤ) - 16 = a.toInt by omega, BitVec.ofInt_toInt] at table

end Narrow

end Sys2Proof.Machine

namespace Sys2Proof.Proofs
open Sys2Proof.Machine

/-- Settles O28: the numbers that the two readings round are less than a unit apart. -/
theorem narrowAtEndDiffersByOneUlp : Obligations.NarrowAtEndDiffersByOneUlp := by
  refine ⟨fun a ha => ?_, fun a _ => narrowAtEnd_of_small, by decide, by decide⟩
  by_cases h0 : a = 0#16
  · have zero : a.toInt.natAbs < 17 := by
      rw [h0]
      decide
    exact ⟨_, narrowAtEnd_of_small zero, Nat.le_succ _, Nat.le_succ _⟩
  · exact narrowAtEnd_close ha h0

end Sys2Proof.Proofs
end

section
/-!
PROOFS. The scaled-integer path (43_simul.md R113 to R127): the product and the quotient of an amount as integers,
the quotient by the sign of the amount, and the wrong product that is wrapped to 32 bits.
-/

namespace Sys2Proof.Machine

/-! ### Division truncated toward zero (00_scope.md R11) -/

section TruncatedDivision
variable {x y : ℤ}

/-- A quotient times the divisor is less than a divisor away from the dividend. -/
theorem tdiv_kDen_close (x : ℤ) :
    -40960 < 40960 * x.tdiv 40960 - x ∧ 40960 * x.tdiv 40960 - x < 40960 := by
  have whole := Int.mul_tdiv_add_tmod x 40960
  have size : (x.tmod 40960).natAbs < 40960 := by
    rw [Int.natAbs_tmod]
    exact Nat.mod_lt _ (by decide)
  omega

/-- Numbers that differ by whole multiples of `2^32`, if at all, have equal quotients only where they are equal:
`2^32` is many divisors. -/
theorem tdiv_kDen_eq_iff (h : (2 ^ 32 : ℤ) ∣ x - y) : x.tdiv 40960 = y.tdiv 40960 ↔ x = y := by
  refine ⟨fun same => ?_, congrArg (Int.tdiv · 40960)⟩
  have closeX := tdiv_kDen_close x
  have closeY := tdiv_kDen_close y
  rw [same] at closeX
  omega

end TruncatedDivision

/-! ### Words cut to fewer bits -/

section Cut
variable {w v : ℕ}

/-- Cutting a word to fewer bits wraps its signed value. -/
theorem toInt_setWidth_bmod (x : BitVec w) (h : v ≤ w) : (x.setWidth v).toInt = x.toInt.bmod (2 ^ v) := by
  rw [BitVec.toInt_setWidth, BitVec.toInt_eq_toNat_bmod, Int.bmod_bmod_of_dvd (Nat.pow_dvd_pow 2 h)]

/-- Where the signed value fits 19 bits, every bit from 18 on is a copy of the sign. -/
theorem getLsbD_eq_msb_of_fits {x : BitVec 32} (low : -2 ^ 18 ≤ x.toInt) (high : x.toInt < 2 ^ 18) {i : ℕ}
    (hi : 18 ≤ i) (hi' : i ≤ 31) : x.getLsbD i = x.msb := by
  have whole : (x.setWidth 19).toInt = x.toInt := by
    rw [toInt_setWidth_bmod x (by decide)]
    exact Int.bmod_eq_of_le_mul_two (by omega) (by omega)
  have extended : (x.setWidth 19).signExtend 32 = x :=
    BitVec.eq_of_toInt_eq (by rw [BitVec.toInt_signExtend_of_le (by decide), whole])
  have sign : (x.setWidth 19).msb = x.msb := by rw [BitVec.msb_eq_toInt, BitVec.msb_eq_toInt, whole]
  rw [← sign, ← congrArg (·.getLsbD i) extended, BitVec.getLsbD_signExtend]
  rcases Nat.eq_or_lt_of_le hi with rfl | above
  · exact (BitVec.msb_eq_getLsbD_last _).symm
  · rw [if_neg (by omega), decide_eq_true (by omega), Bool.true_and]

end Cut

/-! ### The three steps as integers (43_simul.md R113 to R117) -/

section Sim
variable (a : Half)

/-- The widening is a sign extension (43_simul.md R113). -/
theorem widen_toInt : (widen a).toInt = a.toInt := BitVec.toInt_signExtend_of_le (by decide)

/-- The low 32 bits of the quotient are all of it (43_simul.md R117). -/
theorem quotient_toInt : (quotient (prodOf a)).toInt = closedMms2 a.toInt := by
  have magnitude := natAbs_toInt_le a
  have close := tdiv_kDen_close (a.toInt * 980665)
  rw [quotient, prodOf_toInt, kDen, BitVec.toInt_ofInt, ← closedMms2]
  rw [← closedMms2] at close
  exact Int.bmod_eq_of_le_mul_two (by omega) (by omega)

/-- Both constants carry a factor 5, which the quotient does not see (43_simul.md R120). -/
theorem closedMms2_eq_reduced (n : ℤ) : closedMms2 n = (n * 196133).tdiv 8192 := by
  rw [closedMms2, show n * 980665 = n * 196133 * 5 by ring]
  exact Int.mul_tdiv_mul_of_pos_left _ 8192 (by decide)

/-- Truncation is symmetric about zero (43_simul.md R123). -/
theorem closedMms2_neg (n : ℤ) : closedMms2 (-n) = -closedMms2 n := by
  rw [closedMms2, closedMms2, Int.neg_mul, Int.neg_tdiv]

/-- What the division of the product leaves (43_simul.md R125). -/
theorem prodOf_tmod : (prodOf a).toInt.tmod 40960 = a.toInt * 980665 - 40960 * (iresOf a).toInt := by
  rw [Int.tmod_def, iresOf_toInt, closedMms2, prodOf_toInt]

variable {a}

/-- The quotient of a non-negative product is its floor (43_simul.md R116). -/
theorem iresOf_of_nonneg (h : 0 ≤ a.toInt) : (iresOf a).toInt = a.toInt * 980665 / 40960 := by
  rw [iresOf_toInt, closedMms2, Int.tdiv_eq_ediv_of_nonneg (by omega)]

/-- The quotient of a product that is not positive is minus the floor of the opposite one (43_simul.md R116). -/
theorem iresOf_of_nonpos (h : a.toInt ≤ 0) : (iresOf a).toInt = -(-(a.toInt * 980665) / 40960) := by
  rw [iresOf_toInt, closedMms2, ← Int.neg_neg (a.toInt * 980665), Int.neg_tdiv,
    Int.tdiv_eq_ediv_of_nonneg (by omega), Int.neg_neg]

/-- The range of the result (43_simul.md R119). -/
theorem iresOf_range (ha : inRange a) : -196133 ≤ (iresOf a).toInt ∧ (iresOf a).toInt ≤ 196109 := by
  obtain ⟨low, high⟩ := ha
  rcases Int.le_total 0 a.toInt with sign | sign
  · have value := iresOf_of_nonneg sign
    omega
  · have value := iresOf_of_nonpos sign
    omega

/-- One step of the amount moves the product by more than 23 divisors (43_simul.md R119). -/
theorem iresOf_lt {b : Half} (h : a.toInt < b.toInt) : (iresOf a).toInt < (iresOf b).toInt := by
  have closeA := tdiv_kDen_close (a.toInt * 980665)
  have closeB := tdiv_kDen_close (b.toInt * 980665)
  rw [iresOf_toInt, iresOf_toInt, closedMms2, closedMms2]
  omega

/-- The division is exact only where 8192 divides the amount (43_simul.md R125). -/
theorem prodOf_tmod_eq_zero_iff (ha : inRange a) :
    (prodOf a).toInt.tmod 40960 = 0 ↔ a.toInt = 0 ∨ a.toInt = -8192 := by
  obtain ⟨low, high⟩ := ha
  rw [← Int.dvd_iff_tmod_eq_zero, prodOf_toInt]
  omega

/-! ### A product wrapped to 32 bits (43_simul.md R127) -/

/-- Where the product leaves the signed 32-bit range (43_simul.md R115). -/
theorem prodOf_fits32_iff :
    (-2 ^ 31 ≤ (prodOf a).toInt ∧ (prodOf a).toInt ≤ 2 ^ 31 - 1) ↔ a.toInt.natAbs < 2190 := by
  rw [prodOf_toInt]
  omega

variable (a)

/-- A wrapped product is the product exactly where that fits 32 bits. -/
theorem wrapped_eq_iff :
    ((prodOf a).setWidth 32).toInt = (prodOf a).toInt ↔ a.toInt.natAbs < 2190 := by
  rw [← prodOf_fits32_iff]
  constructor
  · intro whole
    have low := BitVec.le_toInt ((prodOf a).setWidth 32)
    have high := BitVec.toInt_lt (x := (prodOf a).setWidth 32)
    omega
  · rintro ⟨low, high⟩
    rw [toInt_setWidth_bmod _ (by decide)]
    exact Int.bmod_eq_of_le_mul_two (by omega) (by omega)

/-- Wrapping adds or takes away whole multiples of `2^32`. -/
theorem two_pow_32_dvd_wrapped_sub :
    (2 ^ 32 : ℤ) ∣ ((prodOf a).setWidth 32).toInt - (prodOf a).toInt := by
  rw [toInt_setWidth_bmod _ (by decide)]
  exact Int.dvd_bmod_sub_self

/-! ### The divider with a biased shift (43_simul.md R126) -/

variable {a} in
/-- The sum that is shifted: the reduced product fits 32 bits, and so does it with the bias. -/
theorem biasedProduct_toInt (ha : inRange a) :
    (a.signExtend 32 * 196133#32 + (if a.msb then 8191#32 else 0#32)).toInt =
      a.toInt * 196133 + (if a.toInt < 0 then 8191 else 0) := by
  obtain ⟨low, high⟩ := ha
  have widened : (a.signExtend 32).toInt = a.toInt := BitVec.toInt_signExtend_of_le (by decide)
  have factor : (196133#32).toInt = 196133 := by decide
  have bias : (if a.msb then 8191#32 else 0#32).toInt = if a.toInt < 0 then 8191 else 0 := by
    rw [BitVec.msb_eq_toInt, apply_ite BitVec.toInt]
    simp only [decide_eq_true_eq]
    rfl
  rw [BitVec.toInt_add, BitVec.toInt_mul, widened, factor, bias, Int.bmod_add_bmod]
  apply Int.bmod_eq_of_le_mul_two <;> split <;> omega

end Sim

/-! ### The command and the printed numbers (43_simul.md R118, R124) -/

/-- Everything a `RAW2MMS2` does to this hardware's machine. -/
theorem exec_raw2mms2 (m l : Byte) (s : State) : exec (.raw2mms2 m l) s =
    answer { s.toStateAt with
      amt := sxu m l, prod := prodOf (sxu m l), ires := iresOf (sxu m l), iv := 1#1 } := by
  rw [exec_eq, commandAt_raw2mms2]

theorem iresOf_least : (iresOf (-8192#16)).toInt = -196133 := by decide

theorem iresOf_greatest : (iresOf 8191#16).toInt = 196109 := by decide

theorem facc3_8054 : facc3 .binary32 8054#16 = 0x419A4361#32 := by decide

/-- The float result at 8054, below 19.2829 by less than a unit in its last place. -/
theorem val_facc3_8054 : val .binary32 (facc3 .binary32 8054#16) = 10109793 / 2 ^ 19 := by
  have sig : significand .binary32 0x419A4361#32 = 10109793 := by decide
  have exponent : scale .binary32 0x419A4361#32 = -19 := by decide
  have sign : signBit .binary32 0x419A4361#32 = false := by decide
  rw [facc3_8054, val_eq, sign, signOf_false, one_mul, absVal, sig, exponent]
  norm_num

end Sys2Proof.Machine

namespace Sys2Proof.Proofs
open Sys2Proof.Machine

/-- Settles O31: all from the product as an integer; an amount is less than one divisor. -/
theorem productNeverOverflows : Obligations.ProductNeverOverflows := by
  refine ⟨widen_toInt, by decide, fun a ha => ?_, by decide, by decide, by decide⟩
  have fits := prodOf_fits32_iff (a := a)
  obtain ⟨low, high⟩ := ha
  have dividedFirst : a.toInt.tdiv 40960 = 0 := by
    rw [← Int.natAbs_eq_zero, Int.natAbs_tdiv]
    exact Nat.div_eq_of_lt (by omega)
  rw [prodOf_toInt] at fits ⊢
  omega

/-- Settles O32: the quotient and `IRES` are the same integer. -/
theorem narrowingIsLossless : Obligations.NarrowingIsLossless := by
  intro a ha
  obtain ⟨low, high⟩ := iresOf_range ha
  have lossless : (iresOf a).toInt = (quotient (prodOf a)).toInt := by rw [iresOf_toInt, quotient_toInt]
  exact ⟨rfl, lossless, by omega⟩

/-- Settles O33: every amount the SXU produces is in range. -/
theorem mms2ClosedForm : Obligations.Mms2ClosedForm := by
  intro m l
  obtain ⟨low, high⟩ := sxu_inRange m l
  exact ⟨iresOf_toInt _, closedMms2_eq_reduced _, by omega⟩

/-- Settles O34: the sign copies from the range, the order from the size of a step. -/
theorem mms2RangeAndOrder : Obligations.Mms2RangeAndOrder := by
  refine ⟨fun a ha => ?_, fun a b _ _ => iresOf_lt, iresOf_least, iresOf_greatest⟩
  obtain ⟨low, high⟩ := iresOf_range ha
  refine ⟨low, high, fun i hi hi' => ?_⟩
  rw [getLsbD_eq_msb_of_fits (by omega) (by omega) hi hi', BitVec.msb_eq_getLsbD_last]

/-- Settles O35: the quotient by the sign of the amount; the floor is another number where the division is not
exact. -/
theorem truncationIsNotFloor : Obligations.TruncationIsNotFloor := by
  refine ⟨fun a ha => ?_, by decide, by decide, by decide, by decide⟩
  have floor (x : ℤ) : x.fdiv 40960 = x / 40960 := Int.fdiv_eq_ediv_of_nonneg x (by decide)
  rw [floor, floor]
  refine ⟨iresOf_of_nonneg, fun negative => iresOf_of_nonpos negative.le, fun negative inexact => ?_⟩
  have value := iresOf_of_nonpos negative.le
  obtain ⟨low, high⟩ := ha
  omega

/-- Settles O36: truncation is symmetric about zero, and 8192 is not in range. -/
theorem mms2OddSymmetry : Obligations.Mms2OddSymmetry := by
  refine ⟨fun a low _ => ?_, fun m l h => ?_⟩
  · have opposite : (-a).toInt = -a.toInt := toInt_neg_of_pos low
    exact ⟨by rw [iresOf_toInt, iresOf_toInt, opposite, closedMms2_neg], opposite⟩
  · have high := (sxu_inRange m l).2
    omega

/-- Settles O37: the zero remainders by divisibility, the signs from what truncation leaves. -/
theorem divisionRemainders : Obligations.DivisionRemainders := by
  refine ⟨fun a ha => ⟨prodOf_tmod_eq_zero_iff ha, fun positive => ?_, fun negative => ?_⟩, by decide⟩
  · by_contra sign
    have value := iresOf_of_nonpos (Int.not_lt.mp sign)
    rw [prodOf_tmod] at positive
    omega
  · by_contra sign
    have value := iresOf_of_nonneg (Int.not_lt.mp sign)
    rw [prodOf_tmod] at negative
    omega

/-- Settles O38: for a negative product the bias turns the floor of the shift into the quotient. -/
theorem biasedShiftDivider : Obligations.BiasedShiftDivider := by
  intro a ha
  apply BitVec.eq_of_toInt_eq
  rw [BitVec.toInt_sshiftRight, biasedProduct_toInt ha, Int.shiftRight_eq_div_pow]
  split
  next negative =>
    rw [iresOf_of_nonpos negative.le]
    omega
  next sign =>
    rw [iresOf_of_nonneg (Int.not_lt.mp sign)]
    omega

/-- Settles O39: wrapping moves the product by nothing or by more than any quotient hides. -/
theorem wrappedProductIsWrong : Obligations.WrappedProductIsWrong := by
  refine ⟨fun a _ => ?_, by decide⟩
  rw [iresOf_toInt, closedMms2, ← prodOf_toInt, tdiv_kDen_eq_iff (two_pow_32_dvd_wrapped_sub a),
    wrapped_eq_iff]

/-- Settles O40: by the two float results as rational numbers. -/
theorem scaledFloatIsNotIntegerResult : Obligations.ScaledFloatIsNotIntegerResult := by
  have integer : (iresOf 8054#16).toInt = 192829 := by decide
  unfold Obligations.ScaledFloatIsNotIntegerResult
  rw [val_facc3_8054, val_facc3_least, val_kG]
  refine ⟨facc3_8054, ?_, ?_, integer, ?_, ?_, iresOf_least⟩ <;> norm_num [gNum, gDen]

/-- Settles O41: the register update of the command; the second command works from the same amount. -/
theorem raw2mms2Completes : Obligations.Raw2mms2Completes := by
  refine ⟨fun m l s => ⟨_, exec_raw2mms2 m l s, rfl⟩, fun m l s t h => ⟨_, exec_raw2mms2 _ l t, ?_⟩,
    fun _ _ => rfl, iresOf_zero, by decide, by decide, iresOf_least, iresOf_greatest, by decide⟩
  rw [exec_raw2mms2] at h
  rw [← Host.Outcome.next.inj h, ← sxu_mask]

end Sys2Proof.Proofs
end

section
/-!
PROOFS. What records a fault of the run: an early read of the host, and nothing else (60_exceptions.md R130, R131,
R144, 70_reset_and_hazards.md R153).
-/

namespace Sys2Proof.Machine

section Faulted
variable {f : Format} (s : StateAt f)

theorem commandAt_faulted (i : Instr) : (commandAt i s).faulted = s.faulted := by
  rw [commandAt_eq_setRegs, StateAt.setRegs_faulted]

/-- A read of `FACC` is judged a fault exactly when `FV = 0`. -/
theorem readFaccAt_faulted : (readFaccAt s).faulted = true ↔ s.faulted = true ∨ s.fv = 0#1 := by
  rw [readFaccAt, StateAt.judge_faulted, StateAt.deliver_faulted, Bool.or_eq_true, Option.not_isSome,
    Option.isNone_iff_eq_none, Regs.heldFacc_eq_none]

/-- A read of `IRES` is judged a fault exactly when `IV = 0`. -/
theorem readIresAt_faulted : (readIresAt s).faulted = true ↔ s.faulted = true ∨ s.iv = 0#1 := by
  rw [readIresAt, StateAt.judge_faulted, StateAt.deliver_faulted, Bool.or_eq_true, Option.not_isSome,
    Option.isNone_iff_eq_none, Regs.heldIres_eq_none]

/-- Of the host's actions only the two reads of a result can record a fault, and none clears it. -/
theorem performAt_faulted (a : HostAction) :
    (performAt a s).faulted = true ↔
      s.faulted = true ∨ (a = .readFacc ∧ s.fv = 0#1) ∨ (a = .readIres ∧ s.iv = 0#1) := by
  cases a with
  | present w => simp [performAt, commandAt_faulted]
  | readStatus => simp [performAt, readStatusAt]
  | readFacc => simp [performAt, readFaccAt_faulted]
  | readIres => simp [performAt, readIresAt_faulted]
  | reset cut => simp [performAt]

/-- A step records a fault exactly when the host's next action is an early read. -/
theorem stepAt_faulted :
    (stepAt s).faulted = true ↔ s.faulted = true ∨
      (∃ rest, s.pending = .readFacc :: rest ∧ s.fv = 0#1) ∨
      (∃ rest, s.pending = .readIres :: rest ∧ s.iv = 0#1) := by
  cases hp : s.pending with
  | nil => simp [stepAt_idle hp]
  | cons a rest => simp [stepAt_pending hp, performAt_faulted]

end Faulted

end Sys2Proof.Machine

namespace Sys2Proof.Proofs
open Sys2Proof.Machine

/-- Settles O50: this hardware's step is the step at its format, which only an early read faults. -/
theorem onlyEarlyReadsFault : Obligations.OnlyEarlyReadsFault :=
  fun s => ⟨_, step_eq s, stepAt_faulted s.toStateAt⟩

/-- Settles O51: a command answers the state of its effect. -/
theorem commandsAlwaysComplete : Obligations.CommandsAlwaysComplete :=
  fun i s => ⟨_, exec_eq i s⟩

end Sys2Proof.Proofs
end

section
/-!
PROOFS. Reset and the hazards of a read: when a result changes, what an early read does, and what keeps a run
free of its fault (70_reset_and_hazards.md R150, R153 to R160).
-/

namespace Sys2Proof.Machine

/-! ### A result stays until its own kind of command or a reset -/

section Results
variable {f : Format} (s : StateAt f)

/-- What a step can do to `FACC`: nothing, or a `RAW2MS2` writes its result, or reset takes the value away
(70_reset_and_hazards.md R157). -/
theorem stepAt_facc :
    (stepAt s).facc = s.facc ∨
    (∃ w rest m l, s.pending = .present w :: rest ∧ decode w = .raw2ms2 m l ∧
      (stepAt s).facc = facc3 f (sxu m l) ∧ (stepAt s).fv = 1#1) ∨
    (∃ cut rest, s.pending = .reset cut :: rest ∧ (stepAt s).heldFacc = none) := by
  rcases stepAt_cases s with ⟨_, hs⟩ | ⟨a, rest, hp, hcase⟩
  · exact .inl (by rw [hs])
  · rcases hcase with ⟨w, m, l, rfl, hd, hs⟩ | ⟨w, m, l, rfl, hd, hs⟩ | ⟨_, hs⟩ | ⟨_, hs⟩ | ⟨_, hs⟩ |
      ⟨cut, rfl, hs⟩
    · exact .inr (.inl ⟨w, rest, m, l, hp, hd, by simp [hs]⟩)
    · exact .inl (by simp [hs])
    · exact .inl (by rw [hs])
    · exact .inl (by rw [hs])
    · exact .inl (by rw [hs])
    · exact .inr (.inr ⟨cut, rest, hp, by simp [hs]⟩)

/-- What a step can do to `IRES` and `PROD`: nothing, or a `RAW2MMS2` writes its results, or reset takes the
values away (70_reset_and_hazards.md R157). -/
theorem stepAt_ires_prod :
    ((stepAt s).ires = s.ires ∧ (stepAt s).prod = s.prod) ∨
    (∃ w rest m l, s.pending = .present w :: rest ∧ decode w = .raw2mms2 m l ∧
      (stepAt s).prod = prodOf (sxu m l) ∧ (stepAt s).ires = iresOf (sxu m l) ∧ (stepAt s).iv = 1#1) ∨
    (∃ cut rest, s.pending = .reset cut :: rest ∧
      (stepAt s).heldIres = none ∧ (stepAt s).heldProd = none) := by
  rcases stepAt_cases s with ⟨_, hs⟩ | ⟨a, rest, hp, hcase⟩
  · exact .inl (by simp [hs])
  · rcases hcase with ⟨w, m, l, rfl, hd, hs⟩ | ⟨w, m, l, rfl, hd, hs⟩ | ⟨_, hs⟩ | ⟨_, hs⟩ | ⟨_, hs⟩ |
      ⟨cut, rfl, hs⟩
    · exact .inl (by simp [hs])
    · exact .inr (.inl ⟨w, rest, m, l, hp, hd, by simp [hs]⟩)
    · exact .inl (by simp [hs])
    · exact .inl (by simp [hs])
    · exact .inl (by simp [hs])
    · exact .inr (.inr ⟨cut, rest, hp, by simp [hs]⟩)

end Results

/-! ### The duty of the host -/

section Duty
variable {f : Format} {s : StateAt f}

/-- A presented `RAW2MS2` sets the first of the two valid bits that the duty goes by. -/
theorem hostDuty_present_raw2ms2 {w : CommandWord} {m l : Byte} (h : decode w = .raw2ms2 m l) (fv iv : Bool)
    (rest : List HostAction) : hostDuty fv iv (.present w :: rest) = hostDuty true iv rest := by
  cases hb : w.getLsbD 16 with
  | false => rw [hostDuty, hb, if_neg Bool.false_ne_true]
  | true => cases (decode_of_bit_set hb).symm.trans h

/-- A presented `RAW2MMS2` sets the second. -/
theorem hostDuty_present_raw2mms2 {w : CommandWord} {m l : Byte} (h : decode w = .raw2mms2 m l)
    (fv iv : Bool) (rest : List HostAction) :
    hostDuty fv iv (.present w :: rest) = hostDuty fv true rest := by
  cases hb : w.getLsbD 16 with
  | true => rw [hostDuty, hb, if_pos rfl]
  | false => cases (decode_of_bit_clear hb).symm.trans h

/-- What the host does from here on keeps its duty (70_reset_and_hazards.md R153). -/
def StateAt.Dutiful (s : StateAt f) : Prop :=
  hostDuty (decide (s.fv = 1#1)) (decide (s.iv = 1#1)) s.pending = true

/-- With nothing left to do the host keeps its duty. -/
theorem StateAt.dutiful_of_idle (h : s.pending = []) : s.Dutiful := by
  rw [Dutiful, h]
  rfl

/-- The host keeps its duty exactly when its next action is no fault and it keeps its duty after it. -/
theorem dutiful_iff_stepAt (h : s.faulted = false) :
    s.Dutiful ↔ (stepAt s).faulted = false ∧ (stepAt s).Dutiful := by
  rcases stepAt_cases s with ⟨_, hs⟩ | ⟨a, rest, hp, hcase⟩
  · simp [hs, h]
  · rcases hcase with ⟨w, m, l, rfl, hd, hs⟩ | ⟨w, m, l, rfl, hd, hs⟩ | ⟨rfl, hs⟩ | ⟨rfl, hs⟩ |
      ⟨rfl, hs⟩ | ⟨cut, rfl, hs⟩
    · simp [StateAt.Dutiful, hp, hs, h, hostDuty_present_raw2ms2 hd]
    · simp [StateAt.Dutiful, hp, hs, h, hostDuty_present_raw2mms2 hd]
    · simp [StateAt.Dutiful, hp, hs, h, hostDuty]
    · simp [StateAt.Dutiful, hp, hs, h, hostDuty, Regs.heldFacc_isSome]
    · simp [StateAt.Dutiful, hp, hs, h, hostDuty, Regs.heldIres_isSome]
    · simp [StateAt.Dutiful, hp, hs, h, hostDuty]

/-- A step takes the host's next action off its list. -/
theorem stepAt_pending_of_cons {a : HostAction} {rest : List HostAction} (hp : s.pending = a :: rest) :
    (stepAt s).pending = rest := by
  rw [stepAt_pending hp]
  cases a with
  | present w => exact congrArg StateAt.pending (commandAt_eq_setRegs _ (decode w))
  | readStatus => rfl
  | readFacc => rfl
  | readIres => rfl
  | reset cut => rfl

/-- A recorded fault stays for the rest of the run (log entry 5). -/
theorem runAt_faulted (h : s.faulted = true) (k : Nat) : (runAt k s).faulted = true := by
  have keeps (t : StateAt f) (ht : t.faulted = true) : (stepAt t).faulted = true :=
    (stepAt_faulted t).mpr (.inl ht)
  exact runAt_keeps keeps k h

/-- A run of any length is free of a fault exactly when the state it starts from is, and every run from the
next state. -/
theorem forall_runAt_not_faulted_iff :
    (∀ k, (runAt k s).faulted = false) ↔
      s.faulted = false ∧ ∀ k, (runAt k (stepAt s)).faulted = false :=
  Nat.and_forall_add_one.symm

/-- By induction on what the host has still to do: each action is no fault exactly when the duty is kept at
it. -/
theorem dutiful_iff_runs_not_faulted (h : s.faulted = false) :
    s.Dutiful ↔ ∀ k, (runAt k s).faulted = false := by
  induction hp : s.pending generalizing s with
  | nil => simp [runAt_idle hp, h, StateAt.dutiful_of_idle hp]
  | cons a rest ih =>
    rw [forall_runAt_not_faulted_iff, dutiful_iff_stepAt h]
    have hrest : (stepAt s).pending = rest := stepAt_pending_of_cons hp
    constructor
    · rintro ⟨hf, hduty⟩
      exact ⟨h, (ih hf hrest).mp hduty⟩
    · rintro ⟨_, hruns⟩
      exact ⟨hruns 0, (ih (hruns 0) hrest).mpr hruns⟩

end Duty

/-- An early read leaves a fault that every longer run still records. -/
theorem run_faulted_of_step {s t : State} (hst : step s = .next t) (ht : t.faulted = true) (k : Nat) :
    ∃ u, run (k + 1) s = .next u ∧ u.faulted = true := by
  refine ⟨_, run_eq (k + 1) s, ?_⟩
  rw [step_next hst] at ht
  exact runAt_faulted ht k

end Sys2Proof.Machine

namespace Sys2Proof.Proofs
open Sys2Proof.Machine

/-- Settles O60: this hardware's run is the run at its format, and there the duty is kept exactly when no
action of the host faults. -/
theorem dutifulHostNeverFaults : Obligations.DutifulHostNeverFaults := by
  refine ⟨fun s h => (dutiful_iff_runs_not_faulted h).trans (forall_congr' fun k => ?_),
    fun _ _ h => dutiful_iff_runs_not_faulted h⟩
  simp [run_eq]

/-- Settles O56, by what a step can do to each result. -/
theorem resultsChangeOnlyByOwnKind : Obligations.ResultsChangeOnlyByOwnKind := by
  intro s t hst
  rw [step_next hst]
  refine ⟨fun changed => (stepAt_facc s.toStateAt).resolve_left changed, fun changed => ?_⟩
  exact (stepAt_ires_prod s.toStateAt).resolve_left (not_and_or.mpr changed)

/-- Settles O43: a command writes registers alone. -/
theorem commandsKeepHostSide : Obligations.CommandsKeepHostSide := by
  intro i s
  refine ⟨_, exec_eq i s, ?_⟩
  rw [commandAt_eq_setRegs]
  exact ⟨StateAt.setRegs_pending .., StateAt.setRegs_readings .., StateAt.setRegs_faulted ..⟩

/-- Settles O46: a reset replaces the registers and does not look at the command it cuts short. -/
theorem resetBeatsCommand : Obligations.ResetBeatsCommand :=
  fun _ _ _ hp => step_pending hp

/-- Settles O49: an early read does what its law says, and its fault stays. -/
theorem earlyReadFaults : Obligations.EarlyReadFaults := by
  refine ⟨fun s rest hp hv => ?_, fun s rest hp hv => ?_⟩
  · have early := (step_pending hp).trans (congrArg answer (readFaccAt_early _ hv))
    exact ⟨early, run_faulted_of_step early rfl⟩
  · have early := (step_pending hp).trans (congrArg answer (readIresAt_early _ hv))
    exact ⟨early, run_faulted_of_step early rfl⟩

/-- Settles O53: each command writes its own results, and both write the same amount. -/
theorem pathsCommute : Obligations.PathsCommute := by
  intro f m l r
  simp only [raw2ms2Regs_eq, raw2mms2Regs_eq, and_self]

end Sys2Proof.Proofs
end
